-- ==== Sys2Proof/Word.lean ====
section
/-! DEFINITION. The two widths of the hardware (spec 00_scope.md R9): bytes and 16-bit words.
`+` and `-` on `Word` are the spec's `+16` and `-16` (R10), arithmetic modulo 65536. -/

namespace Sys2Proof

/-- An 8-bit value: a general register, a memory cell, an opcode or operand byte (R9). -/
abbrev Byte := BitVec 8

/-- A 16-bit value: an address, SP or PC (R9). -/
abbrev Word := BitVec 16

end Sys2Proof
end

