-- ==== Sys2Proof/Machine/Bits.lean ====
section
/-! DEFINITION. Byte and bit-field helpers (spec 00_scope.md R9, R10; 30_encoding.md R83). -/

namespace Sys2Proof.Machine

/-- `pair(h, l) = zext_16(h) * 256 + zext_16(l)` (R10): the word with high byte `h` and low byte `l`. -/
def pair (h l : Byte) : Word := h.setWidth 16 * 256#16 + l.setWidth 16

/-- `hi8(w) = w[15:8]` (R9). -/
def hi8 (w : Word) : Byte := w.extractLsb' 8 8

/-- `lo8(w) = w[7:0]` (R9). -/
def lo8 (w : Word) : Byte := w.extractLsb' 0 8

/-- Byte `k` of a table word: bits `8k+7` to `8k`, bit 0 the least significant of the first byte. -/
def tableByte (w k : Nat) : Byte := BitVec.ofNat 8 (w / 2 ^ (8 * k))

/-- The three bytes (the longest instruction, 30_encoding.md R80) of an instruction whose `nbits` low
bits are `w`; the bits above `nbits` are 0. -/
def tableBytes (nbits w : Nat) : List Byte :=
  let v := w % 2 ^ nbits
  [tableByte v 0, tableByte v 1, tableByte v 2]

end Sys2Proof.Machine
end

