-- ==== Sys2Proof/Config.lean ====
section
/-! DEFINITION. The parameters of the hardware (spec 00_scope.md R5). The two open parameters of a run,
`IMAGE` and `N_STEPS`, are arguments of `launch` and of `Host.Core.run`, not constants. -/

namespace Sys2Proof

/-- `MEM_CELLS` (R5): the number of memory cells. -/
def Config.memCells : Nat := 65536

/-- `RESET_REG` (R5, R31). -/
def Config.resetReg : Byte := 0x00#8

/-- `RESET_FLAG` (R5, R31). -/
def Config.resetFlag : Bool := false

/-- `RESET_SP` (R5, R31). -/
def Config.resetSp : Word := 0xFFFF#16

/-- `RESET_PC` (R5, R31). -/
def Config.resetPc : Word := 0x0000#16

/-- What a memory cell holds that nothing has written: memory is created zero in every cell
(20_memory.md R58). -/
def Config.unlistedByte : Byte := 0x00#8

/-- The two readings of the source's PUSH B (92_eei_decisions.md D2). -/
inductive Config.PushDiscipline
  /-- Decrement SP, then write: the spec's rule (45_stack_push.md R135). -/
  | preDecrement
  /-- Write, then decrement SP: the reading 90_conflicts.md C1 rejects. -/
  | postDecrement
  deriving DecidableEq, Repr

/-- `PUSH_DISCIPLINE` (R5). UNVERIFIED, unsafe (log entry 1): the source contradicts itself and R135 decides. -/
def Config.pushDiscipline : Config.PushDiscipline := .preDecrement

end Sys2Proof
end

