-- ==== Sys2Proof/Machine/State.lean ====
section
/-! DEFINITION. The state of the machine (spec 10_state.md, section 1: "exactly this, and nothing else"),
the reasons a step can stop, and the reset state. -/

namespace Sys2Proof.Machine

/-- The names of the seven general registers (R20). UNVERIFIED, safe (log entry 2): the source says eight and
names seven. -/
inductive Reg
  | A | B | C | D | E | H | L
  deriving DecidableEq, Repr

/-- The names of the five flags (R26). -/
inductive FlagName
  | S | Z | AC | P | CY
  deriving DecidableEq, Repr

/-- The register file (R20): seven independent 8-bit cells. -/
structure Regs where
  a : Byte
  b : Byte
  c : Byte
  d : Byte
  e : Byte
  h : Byte
  l : Byte
  deriving DecidableEq, Repr

/-- The flags (R26): five independent bits, with no packing. -/
structure Flags where
  s : Bool
  z : Bool
  ac : Bool
  p : Bool
  cy : Bool
  deriving DecidableEq, Repr

/-- The memory cells (R29), as the cells that differ from `Config.unlistedByte`, addresses rising.
DESIGN CHOICE, safe (log entry 14). -/
abbrev Memory := List Host.Cell

/-- The whole state of a machine (10_state.md section 1). -/
structure State where
  regs : Regs
  sp : Word
  pc : Word
  flags : Flags
  mem : Memory
  deriving DecidableEq, Repr

/-- The faults of the machine: none (60_exceptions.md R150 to R152, R165). -/
inductive Fault
  deriving DecidableEq, Repr

/-- The refusals of the model. -/
inductive Refusal
  /-- Raised by an arm of `exec` that has no meaning yet; safe. No arm raises it (log entry 13). -/
  | notModelled (mnemonic : String)
  deriving DecidableEq, Repr

/-- The state after reset (R31), over memory as it is created (20_memory.md R58).
DEDUCED, unsafe (log entry 5): memory holds zero because nothing has loaded an image yet. -/
def State.reset : State where
  regs :=
    { a := Config.resetReg, b := Config.resetReg, c := Config.resetReg, d := Config.resetReg,
      e := Config.resetReg, h := Config.resetReg, l := Config.resetReg }
  sp := Config.resetSp
  pc := Config.resetPc
  flags :=
    { s := Config.resetFlag, z := Config.resetFlag, ac := Config.resetFlag, p := Config.resetFlag,
      cy := Config.resetFlag }
  mem := []

end Sys2Proof.Machine
end

