-- ==== Sys2Proof/Machine/Flags.lean ====
section
/-! DEFINITION. The flags (10_state.md R26). No instruction computes, reads or writes one; reset alone
writes them, so reading one by name and clearing all five is all there is. -/

namespace Sys2Proof.Machine

/-- The flag `f`, as the host's inspection sees it (70_reset_and_hazards.md R191). -/
def State.flag (s : State) : FlagName → Bool
  | .S => s.flags.s
  | .Z => s.flags.z
  | .AC => s.flags.ac
  | .P => s.flags.p
  | .CY => s.flags.cy

/-- Every flag 0 (R31). -/
def Flags.cleared : Flags where
  s := false
  z := false
  ac := false
  p := false
  cy := false

end Sys2Proof.Machine
end

