-- ==== Sys2Proof/Machine/Ops.lean ====
section
/-! DEFINITION. The operations over memory and registers that the meanings share: the two memory
transactions (20_memory.md R51), register reads and writes (00_scope.md R10), the push of one byte
(45_stack_push.md R135) and the reset operation (70_reset_and_hazards.md R180). The hardware takes no
exception and returns from none (60_exceptions.md R155, R156), so there is no operation for either. -/

namespace Sys2Proof.Machine

/-! ### Memory -/

/-- The byte in cell `a`. -/
def Memory.read : Memory → Word → Byte
  | [], _ => Config.unlistedByte
  | c :: m, a => if c.1 = a.toNat then c.2 else Memory.read m a

/-- Drop every entry for address `n`. -/
def Memory.erase : Memory → Nat → Memory
  | [], _ => []
  | c :: m, n => if c.1 = n then Memory.erase m n else c :: Memory.erase m n

/-- Put the entry `c` before the first entry with a higher address. -/
def Memory.insert (c : Host.Cell) : Memory → Memory
  | [] => [c]
  | d :: m => if c.1 < d.1 then c :: d :: m else d :: Memory.insert c m

/-- Cell `a` becomes `v`, no other cell changes. A cell that becomes `Config.unlistedByte` is not listed. -/
def Memory.write (m : Memory) (a : Word) (v : Byte) : Memory :=
  if v = Config.unlistedByte then m.erase a.toNat
  else (m.erase a.toNat).insert (a.toNat, v)

/-- The entries lie above `low`, addresses rise strictly and stay inside the 65536 cells, and no entry
equals what an unlisted cell holds. -/
def Memory.wfFrom : Nat → Memory → Bool
  | _, [] => true
  | low, c :: m =>
    decide (low ≤ c.1) && decide (c.1 < Config.memCells) && decide (c.2 ≠ Config.unlistedByte) &&
      Memory.wfFrom (c.1 + 1) m

/-- The one canonical form of a memory. -/
def Memory.wf (m : Memory) : Bool := m.wfFrom 0

/-- `MemRead(addr, 1)` (20_memory.md R51). -/
def State.readByte (s : State) (a : Word) : Byte := s.mem.read a

/-- `MemWrite(addr, 1, v)` (20_memory.md R51). -/
def State.writeByte (s : State) (a : Word) (v : Byte) : State := { s with mem := s.mem.write a v }

/-! ### Registers -/

/-- `x[r]` (00_scope.md R10). -/
def State.reg (s : State) : Reg → Byte
  | .A => s.regs.a
  | .B => s.regs.b
  | .C => s.regs.c
  | .D => s.regs.d
  | .E => s.regs.e
  | .H => s.regs.h
  | .L => s.regs.l

/-- `x[r] <- v` (00_scope.md R10). -/
def State.setReg (s : State) (r : Reg) (v : Byte) : State :=
  match r with
  | .A => { s with regs := { s.regs with a := v } }
  | .B => { s with regs := { s.regs with b := v } }
  | .C => { s with regs := { s.regs with c := v } }
  | .D => { s with regs := { s.regs with d := v } }
  | .E => { s with regs := { s.regs with e := v } }
  | .H => { s with regs := { s.regs with h := v } }
  | .L => { s with regs := { s.regs with l := v } }

/-- `SP <- v` (00_scope.md R10). -/
def State.setSp (s : State) (v : Word) : State := { s with sp := v }

/-- `pc <- v` (00_scope.md R10). -/
def State.setPc (s : State) (v : Word) : State := { s with pc := v }

/-! ### Stack -/

/-- The address one push writes to: below SP in the spec's rule (45_stack_push.md R135), at SP in the
rejected reading (92_eei_decisions.md, note on D2). -/
def pushAddr (p : Config.PushDiscipline) (s : State) : Word :=
  match p with
  | .preDecrement => s.sp - 1
  | .postDecrement => s.sp

/-- Push one byte: write it at `pushAddr` and take 1 from SP, modulo 65536. UNVERIFIED, unsafe
(log entry 4): the wrap at 0x0000 is the spec's decision. -/
def pushByte (p : Config.PushDiscipline) (v : Byte) (s : State) : State :=
  (s.writeByte (pushAddr p s) v).setSp (s.sp - 1)

/-- Push `high`, then `low` (R135: B before C). -/
def pushPair (p : Config.PushDiscipline) (high low : Byte) (s : State) : State :=
  pushByte p low (pushByte p high s)

/-! ### Reset -/

/-- `reset()` (70_reset_and_hazards.md R180): every register, flag, SP and PC takes its reset value
(10_state.md R31); memory keeps its contents. -/
def hostReset (s : State) : State where
  regs :=
    { a := Config.resetReg, b := Config.resetReg, c := Config.resetReg, d := Config.resetReg,
      e := Config.resetReg, h := Config.resetReg, l := Config.resetReg }
  sp := Config.resetSp
  pc := Config.resetPc
  flags := Flags.cleared
  mem := s.mem

end Sys2Proof.Machine
end

