-- ==== Sys2Proof/Machine/Operands.lean ====
section
/-! DEFINITION. The operand forms (30_encoding.md R90): where each takes its byte from or puts it.
Immediate operands are the instruction's own bytes and need no operation. -/

namespace Sys2Proof.Machine

/-- `HL` (10_state.md R22): computed from H and L at each use, never stored. -/
def hl (s : State) : Word := pair (s.reg .H) (s.reg .L)

/-- Register-indirect through HL as a destination (R90). -/
def storeIndirect (v : Byte) (s : State) : State := s.writeByte (hl s) v

/-- Direct: the cell the instruction's 16-bit address names (R90). -/
def loadDirect (addr : Word) (s : State) : Byte := s.readByte addr

/-- Register-pair: the pair B:C as the destination of two immediate bytes, C the low one (R23, R90). -/
def loadPairBC (cVal bVal : Byte) (s : State) : State := (s.setReg .C cVal).setReg .B bVal

/-- Stack: the B:C pair pushed, B first (R90). -/
def pushPairBC (p : Config.PushDiscipline) (s : State) : State := pushPair p (s.reg .B) (s.reg .C) s

end Sys2Proof.Machine
end

