-- ==== Sys2Proof/Machine/DirectLoad.lean ====
section
/-! DEFINITION. LDA (43_direct_load.md). -/

namespace Sys2Proof.Machine

/-- LDA (R125): A becomes the byte in cell `addr`. -/
def execLda (addr : Word) (s : State) : Host.Outcome State Fault Refusal :=
  .next (s.setReg .A (loadDirect addr s))

end Sys2Proof.Machine
end

