-- ==== Sys2Proof/Machine/ImmediateLoad.lean ====
section
/-! DEFINITION. MVI A, B, C, D, E, H, L (41_immediate_load.md R110 to R117). As everywhere in the meanings,
the state already stands past the instruction's bytes (40_fetch_execute.md R101, R106). -/

namespace Sys2Proof.Machine

/-- MVI A (R111). -/
def execMviA (d8 : Byte) (s : State) : Host.Outcome State Fault Refusal := .next (s.setReg .A d8)

/-- MVI B (R112). -/
def execMviB (d8 : Byte) (s : State) : Host.Outcome State Fault Refusal := .next (s.setReg .B d8)

/-- MVI C (R113). -/
def execMviC (d8 : Byte) (s : State) : Host.Outcome State Fault Refusal := .next (s.setReg .C d8)

/-- MVI D (R114). -/
def execMviD (d8 : Byte) (s : State) : Host.Outcome State Fault Refusal := .next (s.setReg .D d8)

/-- MVI E (R115). -/
def execMviE (d8 : Byte) (s : State) : Host.Outcome State Fault Refusal := .next (s.setReg .E d8)

/-- MVI H (R116). -/
def execMviH (d8 : Byte) (s : State) : Host.Outcome State Fault Refusal := .next (s.setReg .H d8)

/-- MVI L (R117). -/
def execMviL (d8 : Byte) (s : State) : Host.Outcome State Fault Refusal := .next (s.setReg .L d8)

end Sys2Proof.Machine
end

