-- ==== Sys2Proof/Machine/IndirectStore.lean ====
section
/-! DEFINITION. MVI M (42_indirect_store.md). -/

namespace Sys2Proof.Machine

/-- MVI M (R120): the cell at HL becomes `d8`. -/
def execMviM (d8 : Byte) (s : State) : Host.Outcome State Fault Refusal := .next (storeIndirect d8 s)

end Sys2Proof.Machine
end

