-- ==== Sys2Proof/Machine/RegisterPairLoad.lean ====
section
/-! DEFINITION. LXI SP and LXI B (44_register_pair_load.md). -/

namespace Sys2Proof.Machine

/-- LXI SP (R130): SP becomes `imm`. -/
def execLxiSp (imm : Word) (s : State) : Host.Outcome State Fault Refusal := .next (s.setSp imm)

/-- LXI B (R131): C becomes `cVal`, then B becomes `bVal`. -/
def execLxiB (cVal bVal : Byte) (s : State) : Host.Outcome State Fault Refusal :=
  .next (loadPairBC cVal bVal s)

end Sys2Proof.Machine
end

