-- ==== Sys2Proof/Machine/StackPush.lean ====
section
/-! DEFINITION. PUSH B (45_stack_push.md). -/

namespace Sys2Proof.Machine

/-- PUSH B (R135): B, then C, each below the SP it finds. -/
def execPushB (s : State) : Host.Outcome State Fault Refusal := .next (pushPairBC Config.pushDiscipline s)

end Sys2Proof.Machine
end

