-- ==== Sys2Proof/Machine/UndefinedOpcode.lean ====
section
/-! DEFINITION. The 244 undefined opcodes (46_undefined_opcodes.md). -/

namespace Sys2Proof.Machine

/-- Undefined opcode (R140): nothing happens after the opcode fetch, whatever the byte. A term that
carries a defined opcode, which the decoder never makes, does nothing too: DESIGN CHOICE, safe (log entry
16). -/
def execUndef (_opcode : Byte) (s : State) : Host.Outcome State Fault Refusal := .next s

end Sys2Proof.Machine
end

