-- ==== Sys2Proof/Syntax.lean ====
section
/-! DEFINITION. The instructions: one constructor per row of spec/opcode_table.json (30_encoding.md R84,
R85). Operands stand as the instruction uses them: `d8` as a byte, a 16-bit operand assembled, the two
bytes of LXI B separate because the spec never combines them (R83). -/

namespace Sys2Proof

inductive Instr
  /-- MVI A, d8 (R111). -/
  | mviA (d8 : Byte)
  /-- MVI B, d8 (R112). -/
  | mviB (d8 : Byte)
  /-- MVI C, d8 (R113). -/
  | mviC (d8 : Byte)
  /-- MVI D, d8 (R114). -/
  | mviD (d8 : Byte)
  /-- MVI E, d8 (R115). -/
  | mviE (d8 : Byte)
  /-- MVI H, d8 (R116). -/
  | mviH (d8 : Byte)
  /-- MVI L, d8 (R117). -/
  | mviL (d8 : Byte)
  /-- MVI M, d8 (R120). -/
  | mviM (d8 : Byte)
  /-- LDA a16 (R125). -/
  | lda (addr : Word)
  /-- LXI SP, d16 (R130). -/
  | lxiSp (imm : Word)
  /-- LXI B: the low byte for C, the high byte for B (R131). -/
  | lxiB (cVal bVal : Byte)
  /-- PUSH B (R135). -/
  | pushB
  /-- Any of the 244 other opcode bytes (R140). -/
  | undef (opcode : Byte)
  deriving DecidableEq, Repr

end Sys2Proof
end

