-- ==== Sys2Proof/Machine/Dispatch.lean ====
section
/-! DEFINITION. One arm per instruction (40_fetch_execute.md R101). -/

namespace Sys2Proof.Machine

def exec (i : Instr) (s : State) : Host.Outcome State Fault Refusal :=
  match i with
  | .mviA d8 => Sys2Proof.Machine.execMviA d8 s
  | .mviB d8 => Sys2Proof.Machine.execMviB d8 s
  | .mviC d8 => Sys2Proof.Machine.execMviC d8 s
  | .mviD d8 => Sys2Proof.Machine.execMviD d8 s
  | .mviE d8 => Sys2Proof.Machine.execMviE d8 s
  | .mviH d8 => Sys2Proof.Machine.execMviH d8 s
  | .mviL d8 => Sys2Proof.Machine.execMviL d8 s
  | .mviM d8 => Sys2Proof.Machine.execMviM d8 s
  | .lda addr => Sys2Proof.Machine.execLda addr s
  | .lxiSp imm => Sys2Proof.Machine.execLxiSp imm s
  | .lxiB cVal bVal => Sys2Proof.Machine.execLxiB cVal bVal s
  | .pushB => Sys2Proof.Machine.execPushB s
  | .undef opcode => Sys2Proof.Machine.execUndef opcode s

end Sys2Proof.Machine
end

