-- ==== Sys2Proof/WellFormed.lean ====
section
/-! DEFINITION. Which instruction terms stand for words of the machine: `undef` carries one of the 244
undefined opcodes; every operand of the other twelve may hold any value (30_encoding.md R86). -/

namespace Sys2Proof

/-- The twelve defined opcodes (30_encoding.md R84), in the order of its table. -/
def definedOpcodes : List Byte :=
  [0x01#8, 0x06#8, 0x0E#8, 0x16#8, 0x1E#8, 0x26#8, 0x2E#8, 0x31#8, 0x36#8, 0x3A#8, 0x3E#8, 0xC5#8]

/-- The check on an instruction term. -/
def Instr.wellFormed : Instr → Bool
  | .mviA _ => true
  | .mviB _ => true
  | .mviC _ => true
  | .mviD _ => true
  | .mviE _ => true
  | .mviH _ => true
  | .mviL _ => true
  | .mviM _ => true
  | .lda _ => true
  | .lxiSp _ => true
  | .lxiB _ _ => true
  | .pushB => true
  | .undef op => !definedOpcodes.contains op

/-- `i` is a well-formed instruction. -/
abbrev WellFormed (i : Instr) : Prop := i.wellFormed = true

end Sys2Proof
end

