-- ==== Sys2Proof/Decode.lean ====
section
/-! DEFINITION. The decoder and the encoder (30_encoding.md R80 to R87). An opcode is recognised by exact
match on all eight bits (R82); it alone fixes the number of operand bytes (R87). -/

namespace Sys2Proof

/-- Why a list of bytes holds no instruction. The machine itself never runs out of bytes (20_memory.md
R51). DESIGN CHOICE, safe (log entry 9). -/
inductive DecodeError
  /-- There is no opcode byte. -/
  | noOpcode
  /-- The opcode wants more operand bytes than there are. -/
  | missingOperand (opcode : Byte)
  deriving DecidableEq, Repr

/-- The three formats of R81, each with the instruction its operand bytes complete. -/
inductive OpcodeForm
  /-- F1: the opcode is the whole instruction. -/
  | f1 (i : Instr)
  /-- F2: one byte `d8` follows. -/
  | f2 (mk : Byte → Instr)
  /-- F3: two bytes follow, low first. -/
  | f3 (mk : Byte → Byte → Instr)

/-- The opcode map (R84), every other byte being an undefined opcode (R85, R142). -/
def opcodeForm (op : Byte) : OpcodeForm :=
  match op with
  | 0x01#8 => .f3 .lxiB
  | 0x06#8 => .f2 .mviB
  | 0x0E#8 => .f2 .mviC
  | 0x16#8 => .f2 .mviD
  | 0x1E#8 => .f2 .mviE
  | 0x26#8 => .f2 .mviH
  | 0x2E#8 => .f2 .mviL
  | 0x31#8 => .f3 fun lo hi => .lxiSp (Machine.pair hi lo)
  | 0x36#8 => .f2 .mviM
  | 0x3A#8 => .f3 fun lo hi => .lda (Machine.pair hi lo)
  | 0x3E#8 => .f2 .mviA
  | 0xC5#8 => .f1 .pushB
  | _ => .f1 (.undef op)

/-- Decode the instruction at the head of a byte list and return the bytes after it. -/
def decode : List Byte → Except DecodeError (Instr × List Byte)
  | [] => .error .noOpcode
  | op :: rest =>
    match opcodeForm op, rest with
    | .f1 i, r => .ok (i, r)
    | .f2 mk, d :: r => .ok (mk d, r)
    | .f2 _, [] => .error (.missingOperand op)
    | .f3 mk, lo :: hi :: r => .ok (mk lo hi, r)
    | .f3 _, [_] => .error (.missingOperand op)
    | .f3 _, [] => .error (.missingOperand op)

/-- The bytes of an instruction, lowest address first (R81, R84, R88). -/
def encode : Instr → List Byte
  | .mviA d => [0x3E#8, d]
  | .mviB d => [0x06#8, d]
  | .mviC d => [0x0E#8, d]
  | .mviD d => [0x16#8, d]
  | .mviE d => [0x1E#8, d]
  | .mviH d => [0x26#8, d]
  | .mviL d => [0x2E#8, d]
  | .mviM d => [0x36#8, d]
  | .lda a => [0x3A#8, Machine.lo8 a, Machine.hi8 a]
  | .lxiSp v => [0x31#8, Machine.lo8 v, Machine.hi8 v]
  | .lxiB c b => [0x01#8, c, b]
  | .pushB => [0xC5#8]
  | .undef op => [op]

/-- What the decoder reads from a table word of `nbits` bits, its first byte in bits 7 to 0 (the form the
host asks for). DESIGN CHOICE, safe (log entry 18): bits above the three bytes are ignored. -/
def decodeTableWord (nbits w : Nat) : Option Instr :=
  match decode (Machine.tableBytes nbits w) with
  | .ok (i, _) => some i
  | .error _ => none

end Sys2Proof
end

