-- ==== Sys2Proof/Machine/Fetch.lean ====
section
/-! DEFINITION. The fetch primitive (40_fetch_execute.md R100) and the fetches of one whole instruction
(R101, R106): the opcode byte, then its operand bytes, low first. -/

namespace Sys2Proof.Machine

/-- `Fetch()` (R100): the byte PC names, and the state with PC one further, modulo 65536.
UNVERIFIED, unsafe (log entry 3): the wrap at 0xFFFF is the spec's decision. -/
def fetch (s : State) : Byte × State := (s.readByte s.pc, s.setPc (s.pc + 1))

/-- Fetch and decode one instruction: the opcode's form says how many more fetches follow. -/
def fetchInstr (s : State) : Instr × State :=
  let (op, s1) := fetch s
  match opcodeForm op with
  | .f1 i => (i, s1)
  | .f2 mk =>
    let (d, s2) := fetch s1
    (mk d, s2)
  | .f3 mk =>
    let (lo, s2) := fetch s1
    let (hi, s3) := fetch s2
    (mk lo hi, s3)

/-- Store `bs` in the cells from `a` up, modulo 65536. -/
def storeBytes (s : State) : Word → List Byte → State
  | _, [] => s
  | a, b :: bs => storeBytes (s.writeByte a b) (a + 1) bs

end Sys2Proof.Machine
end

