-- ==== Sys2Proof/Machine/Step.lean ====
section
/-! DEFINITION. One step (40_fetch_execute.md R101): fetch one instruction, then apply its meaning. -/

namespace Sys2Proof.Machine

/-- `Step()` (R101). All fetches of the instruction come before its effect: DEDUCED, safe (log entry 15). -/
def step (s : State) : Host.Outcome State Fault Refusal :=
  let (i, s') := fetchInstr s
  exec i s'

/-- `s` with the instruction of table word `w` stored where the next step fetches: the cells from PC up.
It stands for the host's load of the image. DESIGN CHOICE, safe (log entry 6). -/
def State.withFetchWord (s : State) (nbits w : Nat) : State := storeBytes s s.pc (tableBytes nbits w)

end Sys2Proof.Machine
end

