-- ==== Sys2Proof/Machine/Bus.lean ====
section
/-! DEFINITION. The memory transactions of a step, in order (20_memory.md R61). They are a function of the
state before the step, not state: no program or host move can see them (92_eei_decisions.md D20).
DESIGN CHOICE, safe (log entry 10). -/

namespace Sys2Proof.Machine

/-- One transaction of the memory interface (R51): `R[a]=v` or `W[a]=v`. -/
inductive Transaction
  /-- A read of cell `addr` that returned `value`. -/
  | read (addr : Word) (value : Byte)
  /-- A write of `value` to cell `addr`. -/
  | write (addr : Word) (value : Byte)
  deriving DecidableEq, Repr

/-- The reads of `n` fetches from `a` up. -/
def fetchReads (s : State) : Word → Nat → List Transaction
  | _, 0 => []
  | a, n + 1 => .read a (s.readByte a) :: fetchReads s (a + 1) n

/-- The data accesses of an instruction (R61), in the state past its bytes. -/
def dataTransactions (i : Instr) (s : State) : List Transaction :=
  match i with
  | .mviA _ => []
  | .mviB _ => []
  | .mviC _ => []
  | .mviD _ => []
  | .mviE _ => []
  | .mviH _ => []
  | .mviL _ => []
  | .mviM d8 => [.write (hl s) d8]
  | .lda addr => [.read addr (s.readByte addr)]
  | .lxiSp _ => []
  | .lxiB _ _ => []
  | .pushB =>
    let p := Config.pushDiscipline
    [.write (pushAddr p s) (s.reg .B), .write (pushAddr p (pushByte p (s.reg .B) s)) (s.reg .C)]
  | .undef _ => []

/-- The memory transactions of the step from `s`, in order (R61). -/
def busTrace (s : State) : List Transaction :=
  let (i, s') := fetchInstr s
  fetchReads s s.pc (encode i).length ++ dataTransactions i s'

/-- What a list of transactions makes of a memory: writes take effect in order, reads change nothing
(R60). -/
def replay : Memory → List Transaction → Memory
  | m, [] => m
  | m, .read _ _ :: ts => replay m ts
  | m, .write a v :: ts => replay (m.write a v) ts

/-- Every read returned the value of the latest earlier write to its cell, or else what the cell held
before (R60). -/
def readsConsistent : Memory → List Transaction → Bool
  | _, [] => true
  | m, .read a v :: ts => decide (m.read a = v) && readsConsistent m ts
  | m, .write a v :: ts => readsConsistent (m.write a v) ts

/-- Is the transaction a write? -/
def Transaction.isWrite : Transaction → Bool
  | .read _ _ => false
  | .write _ _ => true

end Sys2Proof.Machine
end

