-- ==== Sys2Proof/Machine/HostInterface.lean ====
section
/-! DEFINITION. What the host can do to the machine (70_reset_and_hazards.md R184, R185, R191): load an
image before launch; then step or reset, at instruction boundaries only. Inspecting is reading `State`;
stopping is making no further move. -/

namespace Sys2Proof.Machine

/-- Load the image: write any cells with any bytes, in order (R184, R191). -/
def loadImage (s : State) : List (Word × Byte) → State
  | [] => s
  | c :: image => loadImage (s.writeByte c.1 c.2) image

/-- The launch state (R185): the reset state over memory that holds the image and zero elsewhere. -/
def launch (image : List (Word × Byte)) : State := loadImage State.reset image

/-- The host's moves after launch that change the machine (R191). UNVERIFIED, unsafe (log entry 8): the
source shows no other write of the host after launch. -/
inductive HostMove
  /-- Invoke one step. -/
  | step
  /-- Reset, at any instruction boundary (R181). UNVERIFIED, safe (log entry 7). -/
  | reset
  deriving DecidableEq, Repr

/-- One move of the host. -/
def hostMove (s : State) : HostMove → Host.Outcome State Fault Refusal
  | .step => Machine.step s
  | .reset => .next (hostReset s)

/-- A sequence of moves of the host. -/
def hostRun (s : State) : List HostMove → Host.Outcome State Fault Refusal
  | [] => .next s
  | mv :: mvs =>
    match hostMove s mv with
    | .next t => hostRun t mvs
    | .fault r => .fault r
    | .refused r => .refused r

end Sys2Proof.Machine
end

