-- ==== Sys2Proof/Safety.lean ====
section
/-! DEFINITION. What claims say about states and runs. -/

namespace Sys2Proof

open Machine

/-- The invariant of every state (10_state.md R32). The widths hold by the types; what is left to say is
that the memory is a function from the 65536 addresses to bytes, in its one canonical form. -/
def StateInvariant (s : State) : Prop := s.mem.wf = true

/-- All five flags are 0 (10_state.md R26). -/
def FlagsClear (s : State) : Prop := s.flags = Flags.cleared

/-- The states of the runs the host can make (70_reset_and_hazards.md R191): launch with any image, then
any steps and resets. -/
inductive Reachable : State → Prop
  | launch (image : List (Word × Byte)) : Reachable (launch image)
  | step {s t : State} : Reachable s → Machine.step s = .next t → Reachable t
  | reset {s : State} : Reachable s → Reachable (hostReset s)

/-- The byte PC names: the opcode of the next instruction (10_state.md R25). -/
def opcodeAt (s : State) : Byte := s.readByte s.pc

/-- The byte after the opcode: `d8`, `lo` or `c_val` (30_encoding.md R81). -/
def operandLo (s : State) : Byte := s.readByte (s.pc + 1)

/-- The second byte after the opcode: `hi` or `b_val` (30_encoding.md R81). -/
def operandHi (s : State) : Byte := s.readByte (s.pc + 2)

/-- The length in bytes of the instruction with opcode `op` (the table of 30_encoding.md R87). -/
def lengthOf (op : Byte) : Nat :=
  if op ∈ [0x06#8, 0x0E#8, 0x16#8, 0x1E#8, 0x26#8, 0x2E#8, 0x36#8, 0x3E#8] then 2
  else if op ∈ [0x01#8, 0x31#8, 0x3A#8] then 3
  else 1

/-- The opcodes of the instructions that write a register (10_state.md R21). -/
def registerWriters : Reg → List Byte
  | .A => [0x3E#8, 0x3A#8]
  | .B => [0x06#8, 0x01#8]
  | .C => [0x0E#8, 0x01#8]
  | .D => [0x16#8]
  | .E => [0x1E#8]
  | .H => [0x26#8]
  | .L => [0x2E#8]

/-- The opcodes of the instructions that read a register (10_state.md R21). -/
def registerReaders : Reg → List Byte
  | .A => []
  | .B => [0xC5#8]
  | .C => [0xC5#8]
  | .D => []
  | .E => []
  | .H => [0x36#8]
  | .L => [0x36#8]

/-- A run of `n` steps from `s` ends in a state, with no fault and no refusal. -/
def RunCompletes (n : Nat) (s : State) : Prop := ∃ t, core.run n s = .next t

end Sys2Proof
end

