-- ==== Sys2Proof/Certificates/Slice0/Obligations.lean ====
section
/-! DEFINITION. The statements for the provers, from the numbered rules of spec/. -/

open Sys2Proof Sys2Proof.Machine

/-! ### The meanings: every instruction completes, with exactly this effect -/

/-- MVI A to MVI L, after the fetch of `d8`: the named register becomes `d8`, nothing else changes
(41_immediate_load.md R110 to R117). -/
def Obligations.MviLoadsTheNamedRegister : Prop :=
  ∀ (d : Byte) (s : State),
    exec (.mviA d) s = .next { s with regs := { s.regs with a := d } } ∧
    exec (.mviB d) s = .next { s with regs := { s.regs with b := d } } ∧
    exec (.mviC d) s = .next { s with regs := { s.regs with c := d } } ∧
    exec (.mviD d) s = .next { s with regs := { s.regs with d := d } } ∧
    exec (.mviE d) s = .next { s with regs := { s.regs with e := d } } ∧
    exec (.mviH d) s = .next { s with regs := { s.regs with h := d } } ∧
    exec (.mviL d) s = .next { s with regs := { s.regs with l := d } }

/-- MVI M, after the fetch of `d8`: the cell at HL becomes `d8`; every other cell, every register, flag and
SP is unchanged (42_indirect_store.md R120). -/
def Obligations.MviMStoresAtHl : Prop :=
  ∀ (d : Byte) (s : State), ∃ t, exec (.mviM d) s = .next t ∧
    t.regs = s.regs ∧ t.sp = s.sp ∧ t.pc = s.pc ∧ t.flags = s.flags ∧
    ∀ a, t.readByte a = if a = hl s then d else s.readByte a

/-- LDA, after its fetches: A becomes the byte in the addressed cell, nothing else changes
(43_direct_load.md R125). -/
def Obligations.LdaLoadsTheAddressedByte : Prop :=
  ∀ (addr : Word) (s : State),
    exec (.lda addr) s = .next { s with regs := { s.regs with a := s.readByte addr } }

/-- LXI SP, after its fetches: SP becomes the immediate, nothing else changes (44_register_pair_load.md
R130). -/
def Obligations.LxiSpLoadsTheStackPointer : Prop :=
  ∀ (imm : Word) (s : State), exec (.lxiSp imm) s = .next { s with sp := imm }

/-- LXI B, after its fetches: C becomes the first byte and B the second, nothing else changes
(44_register_pair_load.md R131). -/
def Obligations.LxiBLoadsCThenB : Prop :=
  ∀ (c b : Byte) (s : State),
    exec (.lxiB c b) s = .next { s with regs := { s.regs with b := b, c := c } }

/-- PUSH B, after its opcode fetch: B goes to SP - 1, C to SP - 2, SP goes down by 2; every other cell,
every register and flag is unchanged (45_stack_push.md R135). -/
def Obligations.PushBWritesBThenCBelowSp : Prop :=
  ∀ s : State, ∃ t, exec .pushB s = .next t ∧
    t.regs = s.regs ∧ t.flags = s.flags ∧ t.pc = s.pc ∧ t.sp = s.sp - 2 ∧
    ∀ a, t.readByte a =
      if a = s.sp - 1 then s.regs.b else if a = s.sp - 2 then s.regs.c else s.readByte a

/-- An undefined opcode does nothing after its fetch: for the 244 bytes of 30_encoding.md R85 this is
46_undefined_opcodes.md R140. That the term `undef` with one of the twelve defined opcodes, which no bytes
decode to, does nothing either is the model's choice, no rule of the spec (DESIGN CHOICE, log entry 16). -/
def Obligations.UndefinedOpcodeChangesNothing : Prop :=
  ∀ (op : Byte) (s : State), exec (.undef op) s = .next s

/-! ### The step, per family: bytes in memory to next state and memory transactions -/

/-- The step of MVI r (41_immediate_load.md R110 to R117). -/
def Obligations.StepOfMviRegister : Prop :=
  ∀ s : State,
    (opcodeAt s = 0x3E#8 →
      step s = .next { s with regs := { s.regs with a := operandLo s }, pc := s.pc + 2 } ∧
      busTrace s = [.read s.pc 0x3E#8, .read (s.pc + 1) (operandLo s)]) ∧
    (opcodeAt s = 0x06#8 →
      step s = .next { s with regs := { s.regs with b := operandLo s }, pc := s.pc + 2 } ∧
      busTrace s = [.read s.pc 0x06#8, .read (s.pc + 1) (operandLo s)]) ∧
    (opcodeAt s = 0x0E#8 →
      step s = .next { s with regs := { s.regs with c := operandLo s }, pc := s.pc + 2 } ∧
      busTrace s = [.read s.pc 0x0E#8, .read (s.pc + 1) (operandLo s)]) ∧
    (opcodeAt s = 0x16#8 →
      step s = .next { s with regs := { s.regs with d := operandLo s }, pc := s.pc + 2 } ∧
      busTrace s = [.read s.pc 0x16#8, .read (s.pc + 1) (operandLo s)]) ∧
    (opcodeAt s = 0x1E#8 →
      step s = .next { s with regs := { s.regs with e := operandLo s }, pc := s.pc + 2 } ∧
      busTrace s = [.read s.pc 0x1E#8, .read (s.pc + 1) (operandLo s)]) ∧
    (opcodeAt s = 0x26#8 →
      step s = .next { s with regs := { s.regs with h := operandLo s }, pc := s.pc + 2 } ∧
      busTrace s = [.read s.pc 0x26#8, .read (s.pc + 1) (operandLo s)]) ∧
    (opcodeAt s = 0x2E#8 →
      step s = .next { s with regs := { s.regs with l := operandLo s }, pc := s.pc + 2 } ∧
      busTrace s = [.read s.pc 0x2E#8, .read (s.pc + 1) (operandLo s)])

/-- The step of MVI M (42_indirect_store.md R120), the address being the HL of the state before it. -/
def Obligations.StepOfMviM : Prop :=
  ∀ s : State, opcodeAt s = 0x36#8 → ∃ t, step s = .next t ∧
    t.regs = s.regs ∧ t.sp = s.sp ∧ t.flags = s.flags ∧ t.pc = s.pc + 2 ∧
    (hl s).toNat = s.regs.h.toNat * 256 + s.regs.l.toNat ∧
    (∀ a, t.readByte a = if a = hl s then operandLo s else s.readByte a) ∧
    busTrace s =
      [.read s.pc 0x36#8, .read (s.pc + 1) (operandLo s), .write (hl s) (operandLo s)]

/-- The step of LDA (43_direct_load.md R125). -/
def Obligations.StepOfLda : Prop :=
  ∀ s : State, opcodeAt s = 0x3A#8 → ∀ addr : Word,
    addr.toNat = (operandHi s).toNat * 256 + (operandLo s).toNat →
    step s = .next { s with regs := { s.regs with a := s.readByte addr }, pc := s.pc + 3 } ∧
    busTrace s =
      [.read s.pc 0x3A#8, .read (s.pc + 1) (operandLo s), .read (s.pc + 2) (operandHi s),
        .read addr (s.readByte addr)]

/-- The step of LXI SP (44_register_pair_load.md R130). -/
def Obligations.StepOfLxiSp : Prop :=
  ∀ s : State, opcodeAt s = 0x31#8 → ∀ imm : Word,
    imm.toNat = (operandHi s).toNat * 256 + (operandLo s).toNat →
    step s = .next { s with sp := imm, pc := s.pc + 3 } ∧
    busTrace s =
      [.read s.pc 0x31#8, .read (s.pc + 1) (operandLo s), .read (s.pc + 2) (operandHi s)]

/-- The step of LXI B (44_register_pair_load.md R131). -/
def Obligations.StepOfLxiB : Prop :=
  ∀ s : State, opcodeAt s = 0x01#8 →
    step s = .next
      { s with regs := { s.regs with c := operandLo s, b := operandHi s }, pc := s.pc + 3 } ∧
    busTrace s =
      [.read s.pc 0x01#8, .read (s.pc + 1) (operandLo s), .read (s.pc + 2) (operandHi s)]

/-- The step of PUSH B (45_stack_push.md R135). -/
def Obligations.StepOfPushB : Prop :=
  ∀ s : State, opcodeAt s = 0xC5#8 → ∃ t, step s = .next t ∧
    t.regs = s.regs ∧ t.flags = s.flags ∧ t.pc = s.pc + 1 ∧ t.sp = s.sp - 2 ∧
    (∀ a, t.readByte a =
      if a = s.sp - 1 then s.regs.b else if a = s.sp - 2 then s.regs.c else s.readByte a) ∧
    busTrace s =
      [.read s.pc 0xC5#8, .write (s.sp - 1) s.regs.b, .write (s.sp - 2) s.regs.c]

/-- The step of each of the 244 undefined opcodes (46_undefined_opcodes.md R140). -/
def Obligations.StepOfUndefinedOpcode : Prop :=
  ∀ s : State, opcodeAt s ∉ definedOpcodes →
    step s = .next { s with pc := s.pc + 1 } ∧ busTrace s = [.read s.pc (opcodeAt s)]

/-! ### Decoding and encoding -/

/-- When the bytes at PC, addresses modulo 65536, are the encoding of a well-formed `i`, the step is `exec`
of `i` with PC past them (40_fetch_execute.md R101). -/
def Obligations.StepRunsTheDecodedInstruction : Prop :=
  ∀ (i : Instr) (s : State), WellFormed i →
    (∀ k b, (encode i)[k]? = some b → s.readByte (s.pc + BitVec.ofNat 16 k) = b) →
    step s = exec i { s with pc := s.pc + BitVec.ofNat 16 (encode i).length }

/-- Whatever the three bytes at PC, the decoder reads an instruction from them, and the step is `exec` of
it with PC past the bytes the decoder consumed (40_fetch_execute.md R101, 46_undefined_opcodes.md R142). -/
def Obligations.StepRunsWhatTheDecoderReads : Prop :=
  ∀ s : State, ∃ i rest,
    decode [opcodeAt s, operandLo s, operandHi s] = .ok (i, rest) ∧ WellFormed i ∧
    step s = exec i { s with pc := s.pc + BitVec.ofNat 16 (3 - rest.length) }

/-- Decoding the encoding of any well-formed instruction gives it back, with every operand, and leaves the
bytes after it (30_encoding.md R81, R83, R84). -/
def Obligations.DecodeOfEncodeIsTheInstruction : Prop :=
  ∀ (i : Instr) (rest : List Byte), WellFormed i → decode (encode i ++ rest) = .ok (i, rest)

/-- The bytes an instruction was decoded from are its encoding, and it is well-formed: each byte string has
one meaning (30_encoding.md R86). -/
def Obligations.EncodeOfDecodeIsTheBytes : Prop :=
  ∀ (bs : List Byte) (i : Instr) (rest : List Byte),
    decode bs = .ok (i, rest) → encode i ++ rest = bs ∧ WellFormed i

/-- One word per family, written out from 30_encoding.md R84, decodes to the instruction it stands for. -/
def Obligations.SpecWordsDecodeToTheirInstructions : Prop :=
  decode [0b00111110#8, 0x05#8] = .ok (.mviA 0x05#8, []) ∧
  decode [0b00110110#8, 0x25#8] = .ok (.mviM 0x25#8, []) ∧
  decode [0b00111010#8, 0xD0#8, 0x07#8] = .ok (.lda 0x07D0#16, []) ∧
  decode [0b00110001#8, 0xCD#8, 0xAB#8] = .ok (.lxiSp 0xABCD#16, []) ∧
  decode [0b00000001#8, 0x34#8, 0x12#8] = .ok (.lxiB 0x34#8 0x12#8, []) ∧
  decode [0b11000101#8] = .ok (.pushB, []) ∧
  decode [0b11111111#8] = .ok (.undef 0xFF#8, [])

/-- Every byte value decodes: the twelve defined opcodes to a defined instruction, each other byte to the
undefined opcode it is, and there are 244 of those (46_undefined_opcodes.md R142, 30_encoding.md R85). -/
def Obligations.EveryOpcodeByteDecodes : Prop :=
  (∀ op lo hi : Byte, ∃ i rest, decode [op, lo, hi] = .ok (i, rest) ∧
    (op ∉ definedOpcodes → i = .undef op) ∧ (op ∈ definedOpcodes → ∀ o, i ≠ .undef o)) ∧
  ((List.range 256).filter fun n => !definedOpcodes.contains (BitVec.ofNat 8 n)).length = 244

/-- The opcode byte alone fixes the length (30_encoding.md R87). -/
def Obligations.LengthIsFixedByTheOpcode : Prop :=
  ∀ (op : Byte) (bs : List Byte) (i : Instr) (rest : List Byte),
    decode (op :: bs) = .ok (i, rest) → (op :: bs).length = lengthOf op + rest.length

/-- A table word placed where the next step fetches is what that step runs: the form in which the host runs
a word (log entry 6 is the model's choice of where it is placed). -/
def Obligations.PlacedTableWordRunsNext : Prop :=
  ∀ (s : State) (nbits w : Nat), ∃ i, decodeTableWord nbits w = some i ∧
    step (s.withFetchWord nbits w) =
      exec i { s.withFetchWord nbits w with pc := s.pc + BitVec.ofNat 16 (encode i).length }

/-! ### The whole machine -/

/-- The fetch primitive (40_fetch_execute.md R100), with the wrap at 0xFFFF. -/
def Obligations.FetchReadsThenAdvancesPc : Prop :=
  ∀ s : State, fetch s = (s.readByte s.pc, { s with pc := s.pc + 1 }) ∧
    (s.pc = 0xFFFF#16 → (fetch s).2.pc = 0x0000#16)

/-- PC after a step is PC before it plus the length of the instruction executed; there is no other control
flow (40_fetch_execute.md R103). -/
def Obligations.PcAdvancesByTheLength : Prop :=
  ∀ s : State, ∃ t, step s = .next t ∧ t.pc = s.pc + BitVec.ofNat 16 (lengthOf (opcodeAt s))

/-- The one outcome class of a step is a next state (60_exceptions.md R165, which the spec derives from R105
and R150 to R152). The second clause says the same of every meaning; that it also covers the term `undef`
with a defined opcode, which no bytes decode to, is the model's choice (DESIGN CHOICE, log entry 16). -/
def Obligations.EveryStepAnswersANextState : Prop :=
  (∀ s : State, ∃ t, step s = .next t) ∧ ∀ (i : Instr) (s : State), ∃ t, exec i s = .next t

/-- The state after `n` steps is defined for every `n`, and so is the state after any sequence of the host's
steps and resets (70_reset_and_hazards.md R191). -/
def Obligations.RunsOfAnyLengthComplete : Prop :=
  (∀ (n : Nat) (s : State), RunCompletes n s) ∧
  ∀ (s : State) (mvs : List HostMove), ∃ t, hostRun s mvs = .next t

/-- No step writes a flag and none reads one: with other flags the same step is made, and the flags stay
(10_state.md R26). -/
def Obligations.FlagsAreNeitherReadNorWritten : Prop :=
  ∀ (s : State) (f : Flags), ∃ t, step s = .next t ∧ t.flags = s.flags ∧
    step { s with flags := f } = .next { t with flags := f }

/-- A register is written only by the instructions 10_state.md R21 lists for it. -/
def Obligations.RegistersAreWrittenOnlyByTheirWriters : Prop :=
  ∀ (s : State) (r : Reg), ∃ t, step s = .next t ∧
    (opcodeAt s ∉ registerWriters r → t.reg r = s.reg r)

/-- A register is read only by the instructions 10_state.md R21 lists for it: any other step, made with
another value in it, ends with the same SP, PC, flags, memory and other registers. -/
def Obligations.RegistersAreReadOnlyByTheirReaders : Prop :=
  ∀ (s : State) (r : Reg) (v : Byte), opcodeAt s ∉ registerReaders r →
    ∃ t t', step s = .next t ∧ step (s.setReg r v) = .next t' ∧
      t'.sp = t.sp ∧ t'.pc = t.pc ∧ t'.flags = t.flags ∧ t'.mem = t.mem ∧
      (∀ q, q ≠ r → t'.reg q = t.reg q) ∧
      t'.reg r = if opcodeAt s ∈ registerWriters r then t.reg r else v

/-- SP is written by LXI SP and PUSH B alone and read by PUSH B alone (10_state.md R24). -/
def Obligations.SpIsTouchedOnlyByLxiSpAndPushB : Prop :=
  ∀ s : State, ∃ t, step s = .next t ∧
    (opcodeAt s ≠ 0x31#8 → opcodeAt s ≠ 0xC5#8 → t.sp = s.sp) ∧
    (opcodeAt s ≠ 0xC5#8 → ∀ v : Word, step { s with sp := v } =
      .next (if opcodeAt s = 0x31#8 then t else { t with sp := v }))

/-- Memory is written by MVI M, at HL, and by PUSH B, at SP - 1 and SP - 2, and by no other step
(20_memory.md R50, 40_fetch_execute.md R102). -/
def Obligations.MemoryIsWrittenOnlyByMviMAndPushB : Prop :=
  ∀ s t : State, step s = .next t →
    (opcodeAt s ≠ 0x36#8 → opcodeAt s ≠ 0xC5#8 → t.mem = s.mem) ∧
    (opcodeAt s = 0x36#8 → ∀ a, a ≠ hl s → t.readByte a = s.readByte a) ∧
    (opcodeAt s = 0xC5#8 → ∀ a, a ≠ s.sp - 1 → a ≠ s.sp - 2 → t.readByte a = s.readByte a)

/-- What a step makes of memory is what its transactions, in their order, make of it, and each read among
them returns the latest earlier write to its cell (20_memory.md R60, R61; the list of transactions is the
model's view of R61, log entry 10). -/
def Obligations.MemoryAfterAStepIsItsTransactionsReplayed : Prop :=
  ∀ s t : State, step s = .next t →
    t.mem = replay s.mem (busTrace s) ∧ readsConsistent s.mem (busTrace s) = true

/-- All fetches of a step come before its data accesses; at most four transactions and two writes
(20_memory.md R61; log entry 10). -/
def Obligations.FetchesComeBeforeDataAccesses : Prop :=
  ∀ s : State, ∃ data,
    busTrace s = fetchReads s s.pc (lengthOf (opcodeAt s)) ++ data ∧
    (busTrace s).length ≤ 4 ∧ ((busTrace s).filter Transaction.isWrite).length ≤ 2

/-- A step is determined by the registers, SP, PC and the cells its transactions read: over any other memory
that agrees on those cells it makes the same transactions and ends with the same registers, SP, PC and
flags (40_fetch_execute.md R104, R105; 20_memory.md R61; log entry 10). -/
def Obligations.StepDependsOnlyOnTheCellsItReads : Prop :=
  ∀ (s : State) (m : Memory), (∀ a v, .read a v ∈ busTrace s → m.read a = v) →
    ∃ t t', step s = .next t ∧ step { s with mem := m } = .next t' ∧
      t'.regs = t.regs ∧ t'.sp = t.sp ∧ t'.pc = t.pc ∧ t'.flags = t.flags ∧
      busTrace { s with mem := m } = busTrace s ∧ t'.mem = replay m (busTrace s)

/-! ### Stores, fetches and the stack across steps -/

/-- A byte stored just ahead of PC is the opcode the very next step runs, with no fence or delay
(20_memory.md R64): for MVI M, with the stored byte made an MVI A as the instance, and for both bytes of
PUSH B. -/
def Obligations.StoredByteIsTheNextOpcode : Prop :=
  ∀ s : State,
    (opcodeAt s = 0x36#8 → hl s = s.pc + 2 → ∃ t u, step s = .next t ∧ step t = .next u ∧
      opcodeAt t = operandLo s ∧
      u.pc = s.pc + 2 + BitVec.ofNat 16 (lengthOf (operandLo s)) ∧
      (operandLo s = 0x3E#8 → u.regs.a = s.readByte (s.pc + 3))) ∧
    (opcodeAt s = 0xC5#8 → s.sp - 1 = s.pc + 1 → ∃ t, step s = .next t ∧ opcodeAt t = s.regs.b) ∧
    (opcodeAt s = 0xC5#8 → s.sp - 2 = s.pc + 1 → ∃ t, step s = .next t ∧ opcodeAt t = s.regs.c)

/-- MVI M and then LDA: the load returns the stored byte from the cell just written, and what was before
from any other (20_memory.md R60), when the store does not hit the bytes of the LDA. -/
def Obligations.LoadAfterStoreReturnsTheLatestWrite : Prop :=
  ∀ s : State, opcodeAt s = 0x36#8 → s.readByte (s.pc + 2) = 0x3A#8 →
    hl s ≠ s.pc + 2 → hl s ≠ s.pc + 3 → hl s ≠ s.pc + 4 →
    ∃ t u, step s = .next t ∧ step t = .next u ∧ u.pc = s.pc + 5 ∧
      ∀ addr : Word, addr = pair (s.readByte (s.pc + 4)) (s.readByte (s.pc + 3)) →
        u.regs.a = if addr = hl s then operandLo s else s.readByte addr

/-- After PUSH B the cell at the new SP holds C and the one above it holds B: a little-endian pair; the cell
at the old SP keeps its byte (20_memory.md R54, 45_stack_push.md R135). -/
def Obligations.PushedPairIsLittleEndian : Prop :=
  ∀ s : State, opcodeAt s = 0xC5#8 → ∃ t, step s = .next t ∧
    t.readByte t.sp = s.regs.c ∧ t.readByte (t.sp + 1) = s.regs.b ∧
    t.readByte s.sp = s.readByte s.sp

/-- LXI B and then PUSH B puts the two operand bytes on the stack in the order they have in the instruction
stream (10_state.md R23, 20_memory.md R53, R54). -/
def Obligations.LxiBThenPushBKeepsTheByteOrder : Prop :=
  ∀ s : State, opcodeAt s = 0x01#8 → s.readByte (s.pc + 3) = 0xC5#8 →
    ∃ t u, step s = .next t ∧ step t = .next u ∧ u.pc = s.pc + 4 ∧ u.sp = s.sp - 2 ∧
      u.readByte u.sp = operandLo s ∧ u.readByte (u.sp + 1) = operandHi s

/-- Two PUSH B in a row stack downward without overlap (45_stack_push.md R135, corner case (g)), when the
first does not overwrite the second. -/
def Obligations.TwoPushesStackDownward : Prop :=
  ∀ s : State, opcodeAt s = 0xC5#8 → operandLo s = 0xC5#8 →
    s.sp - 1 ≠ s.pc + 1 → s.sp - 2 ≠ s.pc + 1 →
    ∃ t u, step s = .next t ∧ step t = .next u ∧ u.regs = s.regs ∧ u.sp = s.sp - 4 ∧
      u.readByte (s.sp - 1) = s.regs.b ∧ u.readByte (s.sp - 2) = s.regs.c ∧
      u.readByte (s.sp - 3) = s.regs.b ∧ u.readByte (s.sp - 4) = s.regs.c

/-- The two readings of PUSH B agree on SP, registers, flags, PC and every cell but three around the old SP;
the rejected one writes B at the old SP and C below it (92_eei_decisions.md, note on D2; log entry 1). -/
def Obligations.PushDisciplinesDifferOnlyAroundTheOldSp : Prop :=
  ∀ s : State,
    let t := pushPairBC .preDecrement s
    let u := pushPairBC .postDecrement s
    u.sp = t.sp ∧ u.regs = t.regs ∧ u.flags = t.flags ∧ u.pc = t.pc ∧
    u.readByte s.sp = s.regs.b ∧ u.readByte (s.sp - 1) = s.regs.c ∧
    u.readByte (s.sp - 2) = s.readByte (s.sp - 2) ∧
    ∀ a, a ≠ s.sp → a ≠ s.sp - 1 → a ≠ s.sp - 2 → u.readByte a = t.readByte a

/-- HL is `H * 256 + L` (10_state.md R22), and MVI H and MVI L each set one half of it and leave the other
(41_immediate_load.md R116, R117). -/
def Obligations.HlIsBuiltFromItsTwoHalves : Prop :=
  ∀ (s : State) (d : Byte),
    (hl s).toNat = s.regs.h.toNat * 256 + s.regs.l.toNat ∧
    (∃ t, exec (.mviH d) s = .next t ∧ (hl t).toNat = d.toNat * 256 + s.regs.l.toNat) ∧
    (∃ t, exec (.mviL d) s = .next t ∧ (hl t).toNat = s.regs.h.toNat * 256 + d.toNat)

/-! ### Memory -/

/-- The two memory transactions (20_memory.md R51): a write sets its cell and leaves every other cell and
everything outside memory. -/
def Obligations.WriteSetsOneCell : Prop :=
  ∀ (s : State) (a : Word) (v : Byte),
    (s.writeByte a v).readByte a = v ∧
    (∀ b, b ≠ a → (s.writeByte a v).readByte b = s.readByte b) ∧
    ∃ m, s.writeByte a v = { s with mem := m }

/-- Writing the byte a cell already holds changes nothing (20_memory.md R56), in the canonical form. -/
def Obligations.RewritingAHeldByteChangesNothing : Prop :=
  ∀ (s : State) (a : Word), StateInvariant s → s.writeByte a (s.readByte a) = s

/-- Two canonical memories that hold the same byte in every cell are the same memory: the model's choice of
representation (log entry 14) adds nothing to the 65536 cells of 10_state.md R29. -/
def Obligations.CanonicalMemoriesWithEqualReadsAreEqual : Prop :=
  ∀ m m' : Memory, m.wf = true → m'.wf = true → (∀ a, m.read a = m'.read a) → m = m'

/-! ### Reset, boot and reachable states -/

/-- The reset values (10_state.md R31): of the reset state, and of every state after the reset operation.
That the operation leaves memory alone is an inference (DEDUCED, log entry 5; the spec marks it as its own
at 70_reset_and_hazards.md R180, to which R31's table refers). -/
def Obligations.ResetGivesTheStatedValues : Prop :=
  (∀ r, State.reset.reg r = 0x00#8) ∧ State.reset.sp = 0xFFFF#16 ∧ State.reset.pc = 0x0000#16 ∧
  (∀ f, State.reset.flag f = false) ∧ hl State.reset = 0x0000#16 ∧
  ∀ s : State, (∀ r, (hostReset s).reg r = 0x00#8) ∧ (hostReset s).sp = 0xFFFF#16 ∧
    (hostReset s).pc = 0x0000#16 ∧ (∀ f, (hostReset s).flag f = false) ∧ (hostReset s).mem = s.mem

/-- Reset is total, its result does not depend on the processor state before it, and it is
idempotent (70_reset_and_hazards.md R180). That it leaves memory alone is an inference, which R180 marks as
the spec's own (`[derived: from the source's list of what reset sets]`, decision D6; DEDUCED, log entry
5). -/
def Obligations.ResetIsIndependentOfThePriorState : Prop :=
  ∀ s : State, hostReset s = { State.reset with mem := s.mem } ∧
    hostReset (hostReset s) = hostReset s ∧ hostMove s .reset = .next (hostReset s)

/-- Loading the image and resetting give the same launch state in either order
(70_reset_and_hazards.md R185). It rests on reset leaving memory alone (DEDUCED, log entry 5). -/
def Obligations.BootOrderDoesNotMatter : Prop :=
  ∀ (s : State) (image : List (Word × Byte)),
    hostReset (loadImage s image) = loadImage (hostReset s) image

/-- At launch a cell holds the byte the loader wrote there last, or 0x00 if it wrote none, and the rest is
the reset state (20_memory.md R58, 70_reset_and_hazards.md R185). -/
def Obligations.LaunchMemoryIsTheImageOverZero : Prop :=
  ∀ image : List (Word × Byte),
    (∃ m, launch image = { State.reset with mem := m }) ∧
    ∀ a, (launch image).readByte a =
      match image.reverse.find? fun c => c.1 == a with
      | some c => c.2
      | none => 0x00#8

/-- Through memory that is zero everywhere the engine goes one byte a step, round the address space for
ever, and changes only PC (70_reset_and_hazards.md R189). -/
def Obligations.ZeroMemoryIsWalkedOneByteAStep : Prop :=
  ∀ (n : Nat) (s : State), (∀ a, s.readByte a = 0x00#8) →
    core.run n s = .next { s with pc := s.pc + BitVec.ofNat 16 n }

/-- The reset state has the invariant (10_state.md R32). -/
def Obligations.ResetStateHasTheInvariant : Prop := StateInvariant State.reset

/-- Every step from every state that has the invariant leads to one that has it (10_state.md R32; the
canonical form of memory is the model's, log entry 14). -/
def Obligations.EveryStepKeepsTheInvariant : Prop :=
  ∀ s t : State, StateInvariant s → step s = .next t → StateInvariant t

/-- Whatever the host does, loading any image and stepping and resetting as it likes, every state has the
invariant and all five flags are 0 (10_state.md R26, R32; 70_reset_and_hazards.md R191). -/
def Obligations.EveryReachableStateIsCanonicalWithFlagsClear : Prop :=
  ∀ s : State, Reachable s → StateInvariant s ∧ FlagsClear s
end

