-- ==== Sys2Proof/Laws/Decode.lean ====
section
/-! SUPPORT. What the decoder does with each opcode. -/

namespace Sys2Proof

open Machine

/-- An opcode outside the twelve is the whole instruction (30_encoding.md R85, R87). -/
theorem opcodeForm_undefined {op : Byte} (h : definedOpcodes.contains op = false) :
    opcodeForm op = .f1 (.undef op) := by
  unfold opcodeForm
  split <;> first | rfl | (exfalso; revert h; decide)

/-- Every byte is one of the twelve defined opcodes or undefined (30_encoding.md R86). -/
theorem opcode_cases (op : Byte) :
    op = 0x01#8 ∨ op = 0x06#8 ∨ op = 0x0E#8 ∨ op = 0x16#8 ∨ op = 0x1E#8 ∨ op = 0x26#8 ∨ op = 0x2E#8 ∨
      op = 0x31#8 ∨ op = 0x36#8 ∨ op = 0x3A#8 ∨ op = 0x3E#8 ∨ op = 0xC5#8 ∨ op ∉ definedOpcodes := by
  by_cases h : op ∈ definedOpcodes
  · simp only [definedOpcodes, List.mem_cons, List.not_mem_nil, or_false] at h
    tauto
  · simp [h]

/-- The cases of the opcode map. -/
theorem opcodeForm_cases (op : Byte) :
    (op = 0x01#8 ∧ opcodeForm op = .f3 .lxiB) ∨
    (op = 0x06#8 ∧ opcodeForm op = .f2 .mviB) ∨
    (op = 0x0E#8 ∧ opcodeForm op = .f2 .mviC) ∨
    (op = 0x16#8 ∧ opcodeForm op = .f2 .mviD) ∨
    (op = 0x1E#8 ∧ opcodeForm op = .f2 .mviE) ∨
    (op = 0x26#8 ∧ opcodeForm op = .f2 .mviH) ∨
    (op = 0x2E#8 ∧ opcodeForm op = .f2 .mviL) ∨
    (op = 0x31#8 ∧ opcodeForm op = .f3 fun lo hi => .lxiSp (pair hi lo)) ∨
    (op = 0x36#8 ∧ opcodeForm op = .f2 .mviM) ∨
    (op = 0x3A#8 ∧ opcodeForm op = .f3 fun lo hi => .lda (pair hi lo)) ∨
    (op = 0x3E#8 ∧ opcodeForm op = .f2 .mviA) ∨
    (op = 0xC5#8 ∧ opcodeForm op = .f1 .pushB) ∨
    (definedOpcodes.contains op = false ∧ opcodeForm op = .f1 (.undef op)) := by
  cases h : definedOpcodes.contains op with
  | false => simp [opcodeForm_undefined h]
  | true =>
    simp only [definedOpcodes, List.contains_cons, List.contains_nil, Bool.or_false, Bool.or_eq_true,
      beq_iff_eq] at h
    rcases h with rfl | rfl | rfl | rfl | rfl | rfl | rfl | rfl | rfl | rfl | rfl | rfl <;>
      simp [opcodeForm]

end Sys2Proof
end

