-- ==== Sys2Proof/Laws/State.lean ====
section
/-! SUPPORT. One lemma per field per update of the state, so that later proofs never unfold an update. -/

namespace Sys2Proof.Machine

section
variable (s : State) (r : Reg) (v : Byte) (w a : Word)

@[simp] theorem State.setPc_pc : (s.setPc w).pc = w := rfl
@[simp] theorem State.setPc_sp : (s.setPc w).sp = s.sp := rfl
@[simp] theorem State.setPc_regs : (s.setPc w).regs = s.regs := rfl
@[simp] theorem State.setPc_flags : (s.setPc w).flags = s.flags := rfl
@[simp] theorem State.setPc_mem : (s.setPc w).mem = s.mem := rfl
@[simp] theorem State.setPc_setPc : (s.setPc a).setPc w = s.setPc w := rfl

@[simp] theorem State.setSp_sp : (s.setSp w).sp = w := rfl
@[simp] theorem State.setSp_pc : (s.setSp w).pc = s.pc := rfl
@[simp] theorem State.setSp_regs : (s.setSp w).regs = s.regs := rfl
@[simp] theorem State.setSp_flags : (s.setSp w).flags = s.flags := rfl
@[simp] theorem State.setSp_mem : (s.setSp w).mem = s.mem := rfl

@[simp] theorem State.writeByte_mem : (s.writeByte a v).mem = s.mem.write a v := rfl
@[simp] theorem State.writeByte_pc : (s.writeByte a v).pc = s.pc := rfl
@[simp] theorem State.writeByte_sp : (s.writeByte a v).sp = s.sp := rfl
@[simp] theorem State.writeByte_regs : (s.writeByte a v).regs = s.regs := rfl
@[simp] theorem State.writeByte_flags : (s.writeByte a v).flags = s.flags := rfl

@[simp] theorem State.setReg_pc : (s.setReg r v).pc = s.pc := by cases r <;> rfl
@[simp] theorem State.setReg_sp : (s.setReg r v).sp = s.sp := by cases r <;> rfl
@[simp] theorem State.setReg_flags : (s.setReg r v).flags = s.flags := by cases r <;> rfl
@[simp] theorem State.setReg_mem : (s.setReg r v).mem = s.mem := by cases r <;> rfl

/-- A register write changes the one register it names (10_state.md R20). -/
@[simp] theorem State.reg_setReg (q : Reg) :
    (s.setReg r v).reg q = if q = r then v else s.reg q := by
  cases r <;> cases q <;> rfl

@[simp] theorem State.reg_setPc (q : Reg) : (s.setPc w).reg q = s.reg q := by cases q <;> rfl
@[simp] theorem State.reg_setSp (q : Reg) : (s.setSp w).reg q = s.reg q := by cases q <;> rfl
@[simp] theorem State.reg_writeByte (q : Reg) : (s.writeByte a v).reg q = s.reg q := by
  cases q <;> rfl

@[simp] theorem State.readByte_setPc : (s.setPc w).readByte a = s.readByte a := rfl
@[simp] theorem State.readByte_setSp : (s.setSp w).readByte a = s.readByte a := rfl
@[simp] theorem State.readByte_setReg : (s.setReg r v).readByte a = s.readByte a := by
  cases r <;> rfl

end

section
variable (s : State)

@[simp] theorem hostReset_sp : (hostReset s).sp = Config.resetSp := rfl
@[simp] theorem hostReset_pc : (hostReset s).pc = Config.resetPc := rfl
@[simp] theorem hostReset_flags : (hostReset s).flags = Flags.cleared := rfl
@[simp] theorem hostReset_mem : (hostReset s).mem = s.mem := rfl
@[simp] theorem hostReset_reg (r : Reg) : (hostReset s).reg r = Config.resetReg := by
  cases r <;> rfl

end

/-- Two states with equal fields are equal. -/
theorem State.ext_fields {s t : State} (hr : s.regs = t.regs) (hs : s.sp = t.sp) (hp : s.pc = t.pc)
    (hf : s.flags = t.flags) (hm : s.mem = t.mem) : s = t := by
  cases s; cases t; cases hr; cases hs; cases hp; cases hf; cases hm; rfl

/-- Equal registers by name are equal register files. -/
theorem State.regs_ext {s t : State} (h : ∀ r, s.reg r = t.reg r) : s.regs = t.regs := by
  have ha := h .A; have hb := h .B; have hc := h .C; have hd := h .D
  have he := h .E; have hh := h .H; have hl := h .L
  obtain ⟨⟨⟩, _, _, _, _⟩ := s
  obtain ⟨⟨⟩, _, _, _, _⟩ := t
  simp_all [State.reg]

end Sys2Proof.Machine
end

