-- ==== Sys2Proof/Laws/Memory.lean ====
section
/-! SUPPORT. What the memory operations do: a read after a write, and the canonical form, which every
operation keeps. -/

namespace Sys2Proof.Machine

theorem Memory.read_erase (m : Memory) (n : Nat) (b : Word) :
    (m.erase n).read b = if b.toNat = n then Config.unlistedByte else m.read b := by
  induction m with
  | nil => simp [Memory.erase, Memory.read]
  | cons c m ih =>
    simp only [Memory.erase, Memory.read]
    split <;> rename_i h
    · rw [ih]
      split
      · rfl
      · rw [if_neg (by omega)]
    · simp only [Memory.read, ih]
      split <;> split <;> first | rfl | omega

theorem Memory.read_insert (c : Host.Cell) (m : Memory) (b : Word) :
    (∀ d ∈ m, d.1 ≠ c.1) →
      (Memory.insert c m).read b = if c.1 = b.toNat then c.2 else m.read b := by
  induction m with
  | nil => intro _; rfl
  | cons d m ih =>
    intro hne
    simp only [Memory.insert]
    split
    · rfl
    · have hd := hne d (by simp)
      have := ih fun e he => hne e (by simp [he])
      simp only [Memory.read, this]
      split <;> split <;> first | rfl | omega

theorem Memory.erase_ne (m : Memory) (n : Nat) : ∀ d ∈ m.erase n, d.1 ≠ n := by
  induction m with
  | nil => simp [Memory.erase]
  | cons c m ih =>
    simp only [Memory.erase]
    split
    · exact ih
    · simpa [*] using ih

/-- A read after a write gives the value written there and what was before everywhere else
(20_memory.md R51). It holds of every list of cells. -/
@[simp] theorem Memory.read_write (m : Memory) (a b : Word) (v : Byte) :
    (m.write a v).read b = if b = a then v else m.read b := by
  have hab : (b = a) ↔ b.toNat = a.toNat := BitVec.toNat_inj.symm
  unfold Memory.write
  split <;> rename_i h
  · rw [Memory.read_erase]; simp [hab, h]
  · rw [Memory.read_insert _ _ _ (Memory.erase_ne m a.toNat), Memory.read_erase]
    by_cases e : b = a
    · subst e; simp
    · have e' : ¬ b.toNat = a.toNat := fun h => e (hab.2 h)
      rw [if_neg (fun h => e' h.symm), if_neg e', if_neg e]

@[simp] theorem State.readByte_writeByte (s : State) (a b : Word) (v : Byte) :
    (s.writeByte a v).readByte b = if b = a then v else s.readByte b :=
  Memory.read_write s.mem a b v

/-! ### The canonical form -/

theorem Memory.wfFrom_cons (low : Nat) (c : Host.Cell) (m : Memory) :
    Memory.wfFrom low (c :: m) = true ↔
      low ≤ c.1 ∧ c.1 < Config.memCells ∧ c.2 ≠ Config.unlistedByte ∧ m.wfFrom (c.1 + 1) = true := by
  simp [Memory.wfFrom, and_assoc]

theorem Memory.wfFrom_mono {low low' : Nat} (h : low' ≤ low) (m : Memory) :
    m.wfFrom low = true → m.wfFrom low' = true := by
  cases m with
  | nil => simp [Memory.wfFrom]
  | cons c m =>
    simp only [Memory.wfFrom_cons]
    rintro ⟨h1, h2⟩
    exact ⟨by omega, h2⟩

/-- Erasing keeps the canonical form. -/
theorem Memory.wfFrom_erase (n : Nat) (m : Memory) (low : Nat) :
    m.wfFrom low = true → (m.erase n).wfFrom low = true := by
  induction m generalizing low with
  | nil => exact id
  | cons c m ih =>
    rw [Memory.wfFrom_cons]
    rintro ⟨h1, h2, h3, h4⟩
    simp only [Memory.erase]
    split
    · exact ih low (Memory.wfFrom_mono (by omega) m h4)
    · exact (Memory.wfFrom_cons ..).2 ⟨h1, h2, h3, ih _ h4⟩

/-- Inserting a fresh listed cell keeps the canonical form. -/
theorem Memory.wfFrom_insert (c : Host.Cell) (hc : c.1 < Config.memCells)
    (hv : c.2 ≠ Config.unlistedByte) (m : Memory) (low : Nat) (hl : low ≤ c.1) :
    (∀ d ∈ m, d.1 ≠ c.1) → m.wfFrom low = true → (Memory.insert c m).wfFrom low = true := by
  induction m generalizing low with
  | nil => intro _ _; exact (Memory.wfFrom_cons ..).2 ⟨hl, hc, hv, rfl⟩
  | cons d m ih =>
    intro hne
    have hd := hne d (by simp)
    rw [Memory.wfFrom_cons]
    rintro ⟨h1, h2, h3, h4⟩
    simp only [Memory.insert]
    split
    · exact (Memory.wfFrom_cons ..).2
        ⟨hl, hc, hv, (Memory.wfFrom_cons ..).2 ⟨by omega, h2, h3, h4⟩⟩
    · exact (Memory.wfFrom_cons ..).2
        ⟨h1, h2, h3, ih _ (by omega) (fun e he => hne e (by simp [he])) h4⟩

/-- Every write keeps the canonical form. -/
theorem Memory.wf_write (m : Memory) (a : Word) (v : Byte) (h : m.wf = true) :
    (m.write a v).wf = true := by
  have he := Memory.wfFrom_erase a.toNat m 0 h
  unfold Memory.write Memory.wf
  split
  · exact he
  · exact Memory.wfFrom_insert _ a.isLt (by assumption) _ _ (Nat.zero_le _)
      (Memory.erase_ne m a.toNat) he

/-- The memory of the reset state is canonical. -/
theorem Memory.wf_reset : State.reset.mem.wf = true := rfl

end Sys2Proof.Machine
end

