-- ==== Sys2Proof/Laws/Operands.lean ====
section
/-! SUPPORT. What the shared operand operations do, one lemma each. -/

namespace Sys2Proof.Machine

/-- The number `pair` stands for (30_encoding.md R83): no bit of either byte is lost. -/
theorem pair_toNat (h l : Byte) : (pair h l).toNat = h.toNat * 256 + l.toNat := by
  have := h.isLt; have := l.isLt
  simp [pair, BitVec.toNat_add, BitVec.toNat_mul]
  omega

@[simp] theorem hi8_pair (h l : Byte) : hi8 (pair h l) = h := by
  apply BitVec.eq_of_toNat_eq
  have := h.isLt; have := l.isLt
  simp [hi8, pair_toNat, Nat.shiftRight_eq_div_pow]
  omega

@[simp] theorem lo8_pair (h l : Byte) : lo8 (pair h l) = l := by
  apply BitVec.eq_of_toNat_eq
  have := h.isLt; have := l.isLt
  simp [lo8, pair_toNat]
  omega

@[simp] theorem pair_hi8_lo8 (w : Word) : pair (hi8 w) (lo8 w) = w := by
  apply BitVec.eq_of_toNat_eq
  have := w.isLt
  simp [hi8, lo8, pair_toNat, Nat.shiftRight_eq_div_pow]
  omega

@[simp] theorem hl_setPc (s : State) (w : Word) : hl (s.setPc w) = hl s := rfl
@[simp] theorem hl_setSp (s : State) (w : Word) : hl (s.setSp w) = hl s := rfl
@[simp] theorem hl_writeByte (s : State) (a : Word) (v : Byte) : hl (s.writeByte a v) = hl s := rfl

section
variable (p : Config.PushDiscipline) (high low v : Byte) (s : State)

@[simp] theorem pushByte_sp : (pushByte p v s).sp = s.sp - 1 := rfl
@[simp] theorem pushByte_pc : (pushByte p v s).pc = s.pc := rfl
@[simp] theorem pushByte_regs : (pushByte p v s).regs = s.regs := rfl
@[simp] theorem pushByte_flags : (pushByte p v s).flags = s.flags := rfl
@[simp] theorem pushByte_mem : (pushByte p v s).mem = s.mem.write (pushAddr p s) v := rfl

@[simp] theorem pushPair_pc : (pushPair p high low s).pc = s.pc := rfl
@[simp] theorem pushPair_regs : (pushPair p high low s).regs = s.regs := rfl
@[simp] theorem pushPair_flags : (pushPair p high low s).flags = s.flags := rfl

/-- Both disciplines take 2 from SP (90_conflicts.md C1). -/
@[simp] theorem pushPair_sp : (pushPair p high low s).sp = s.sp - 2 := by
  show s.sp - 1 - 1 = s.sp - 2
  bv_omega

/-- The pre-decrement push writes the high byte below SP and the low byte below that (R135). -/
theorem pushPair_mem_pre :
    (pushPair .preDecrement high low s).mem = (s.mem.write (s.sp - 1) high).write (s.sp - 2) low := by
  show (s.mem.write (s.sp - 1) high).write (s.sp - 1 - 1) low = _
  rw [show s.sp - 1 - 1 = s.sp - 2 by bv_omega]

/-- What a cell holds after the pre-decrement push of a pair (R135). -/
theorem pushPair_readByte_pre (a : Word) :
    (pushPair .preDecrement high low s).readByte a =
      if a = s.sp - 1 then high else if a = s.sp - 2 then low else s.readByte a := by
  have : s.sp - 2 ≠ s.sp - 1 := fun h => by bv_omega
  rw [State.readByte, pushPair_mem_pre, Memory.read_write, Memory.read_write]
  split <;> split <;> simp_all [State.readByte]

/-- The post-decrement push, the reading the spec rejects, writes one cell higher (note on D2). -/
theorem pushPair_mem_post :
    (pushPair .postDecrement high low s).mem = (s.mem.write s.sp high).write (s.sp - 1) low := rfl

end

end Sys2Proof.Machine
end

