-- ==== Sys2Proof/Laws/Fetch.lean ====
section
/-! SUPPORT. What fetching one instruction does: which instruction, and PC past its bytes. -/

namespace Sys2Proof.Machine

/-- The opcode is the whole instruction. -/
theorem fetchInstr_f1 {s : State} {i : Instr} (h : opcodeForm (s.readByte s.pc) = .f1 i) :
    fetchInstr s = (i, s.setPc (s.pc + 1)) := by
  simp [fetchInstr, fetch, h]

/-- One operand byte is fetched. -/
theorem fetchInstr_f2 {s : State} {mk : Byte → Instr} (h : opcodeForm (s.readByte s.pc) = .f2 mk) :
    fetchInstr s = (mk (s.readByte (s.pc + 1)), s.setPc (s.pc + 2)) := by
  simp [fetchInstr, fetch, h, BitVec.add_assoc]

/-- Two operand bytes are fetched, the low one first. -/
theorem fetchInstr_f3 {s : State} {mk : Byte → Byte → Instr}
    (h : opcodeForm (s.readByte s.pc) = .f3 mk) :
    fetchInstr s =
      (mk (s.readByte (s.pc + 1)) (s.readByte (s.pc + 2)), s.setPc (s.pc + 3)) := by
  simp [fetchInstr, fetch, h, BitVec.add_assoc]

/-- Everything a fetch of one instruction can do: the form of the opcode byte decides. -/
theorem fetchInstr_cases (s : State) :
    (∃ i, opcodeForm (s.readByte s.pc) = .f1 i ∧ fetchInstr s = (i, s.setPc (s.pc + 1))) ∨
    (∃ mk, opcodeForm (s.readByte s.pc) = .f2 mk ∧
      fetchInstr s = (mk (s.readByte (s.pc + 1)), s.setPc (s.pc + 2))) ∨
    (∃ mk, opcodeForm (s.readByte s.pc) = .f3 mk ∧
      fetchInstr s = (mk (s.readByte (s.pc + 1)) (s.readByte (s.pc + 2)), s.setPc (s.pc + 3))) := by
  cases h : opcodeForm (s.readByte s.pc) with
  | f1 i => exact .inl ⟨i, rfl, fetchInstr_f1 h⟩
  | f2 mk => exact .inr (.inl ⟨mk, rfl, fetchInstr_f2 h⟩)
  | f3 mk => exact .inr (.inr ⟨mk, rfl, fetchInstr_f3 h⟩)

end Sys2Proof.Machine
end

