-- ==== Sys2Proof/Laws/Bus.lean ====
section
/-! SUPPORT. What the fetch part of a transaction list does: nothing to memory, and consistent reads. -/

namespace Sys2Proof.Machine

@[simp] theorem fetchReads_length (s : State) (a : Word) (n : Nat) : (fetchReads s a n).length = n := by
  induction n generalizing a with
  | zero => rfl
  | succ n ih => simp [fetchReads, ih]

/-- Fetches write nothing. -/
theorem replay_fetchReads (s : State) (a : Word) (n : Nat) (m : Memory) (ts : List Transaction) :
    replay m (fetchReads s a n ++ ts) = replay m ts := by
  induction n generalizing a with
  | zero => rfl
  | succ n ih => exact ih _

/-- Fetches return what memory holds. -/
theorem readsConsistent_fetchReads (s : State) (a : Word) (n : Nat) (ts : List Transaction) :
    readsConsistent s.mem (fetchReads s a n ++ ts) = readsConsistent s.mem ts := by
  induction n generalizing a with
  | zero => rfl
  | succ n ih => simp [fetchReads, readsConsistent, ih, State.readByte]

/-- The transactions of a step are its fetches, then its data accesses (20_memory.md R61). -/
theorem busTrace_of_fetchInstr {s s' : State} {i : Instr} (h : fetchInstr s = (i, s')) :
    busTrace s = fetchReads s s.pc (encode i).length ++ dataTransactions i s' := by
  simp [busTrace, h]

end Sys2Proof.Machine
end

