-- ==== Sys2Proof/Laws/PerInstr.lean ====
section
/-! SUPPORT. The per-instruction family RoundTrip: the decoder gives back the instruction whose bytes stand
at the head of a list, with every operand, and leaves the bytes after it. -/

namespace Sys2Proof.Laws

open Machine

/-- Decoding the bytes of `i`, whatever follows them, gives `i` and what follows. -/
def RoundTrip.Statement (i : Instr) : Prop :=
  WellFormed i → ∀ rest, decode (encode i ++ rest) = .ok (i, rest)

theorem RoundTrip.mviA (d8 : Byte) : RoundTrip.Statement (.mviA d8) := fun _ _ => rfl
theorem RoundTrip.mviB (d8 : Byte) : RoundTrip.Statement (.mviB d8) := fun _ _ => rfl
theorem RoundTrip.mviC (d8 : Byte) : RoundTrip.Statement (.mviC d8) := fun _ _ => rfl
theorem RoundTrip.mviD (d8 : Byte) : RoundTrip.Statement (.mviD d8) := fun _ _ => rfl
theorem RoundTrip.mviE (d8 : Byte) : RoundTrip.Statement (.mviE d8) := fun _ _ => rfl
theorem RoundTrip.mviH (d8 : Byte) : RoundTrip.Statement (.mviH d8) := fun _ _ => rfl
theorem RoundTrip.mviL (d8 : Byte) : RoundTrip.Statement (.mviL d8) := fun _ _ => rfl
theorem RoundTrip.mviM (d8 : Byte) : RoundTrip.Statement (.mviM d8) := fun _ _ => rfl

theorem RoundTrip.lda (addr : Word) : RoundTrip.Statement (.lda addr) := fun _ rest =>
  show Except.ok (Instr.lda (pair (hi8 addr) (lo8 addr)), rest) = _ by rw [pair_hi8_lo8]

theorem RoundTrip.lxiSp (imm : Word) : RoundTrip.Statement (.lxiSp imm) := fun _ rest =>
  show Except.ok (Instr.lxiSp (pair (hi8 imm) (lo8 imm)), rest) = _ by rw [pair_hi8_lo8]

theorem RoundTrip.lxiB (cVal bVal : Byte) : RoundTrip.Statement (.lxiB cVal bVal) := fun _ _ => rfl
theorem RoundTrip.pushB : RoundTrip.Statement .pushB := fun _ _ => rfl

theorem RoundTrip.undef (opcode : Byte) : RoundTrip.Statement (.undef opcode) := fun h rest => by
  have hu : definedOpcodes.contains opcode = false := by simpa [WellFormed, Instr.wellFormed] using h
  simp [encode, decode, opcodeForm_undefined hu]

end Sys2Proof.Laws
end

