-- ==== Sys2Proof/Laws/Step.lean ====
section
/-! SUPPORT. What a step and a meaning can do, said once. -/

namespace Sys2Proof.Machine

/-! ### The answer of each meaning -/

section
variable (d8 cVal bVal op : Byte) (addr imm : Word) (s : State)

theorem exec_mviA : exec (.mviA d8) s = .next (s.setReg .A d8) := rfl
theorem exec_mviB : exec (.mviB d8) s = .next (s.setReg .B d8) := rfl
theorem exec_mviC : exec (.mviC d8) s = .next (s.setReg .C d8) := rfl
theorem exec_mviD : exec (.mviD d8) s = .next (s.setReg .D d8) := rfl
theorem exec_mviE : exec (.mviE d8) s = .next (s.setReg .E d8) := rfl
theorem exec_mviH : exec (.mviH d8) s = .next (s.setReg .H d8) := rfl
theorem exec_mviL : exec (.mviL d8) s = .next (s.setReg .L d8) := rfl
theorem exec_mviM : exec (.mviM d8) s = .next (s.writeByte (hl s) d8) := rfl
theorem exec_lda : exec (.lda addr) s = .next (s.setReg .A (s.readByte addr)) := rfl
theorem exec_lxiSp : exec (.lxiSp imm) s = .next (s.setSp imm) := rfl
theorem exec_lxiB : exec (.lxiB cVal bVal) s = .next ((s.setReg .C cVal).setReg .B bVal) := rfl
theorem exec_pushB :
    exec .pushB s = .next (pushPair Config.pushDiscipline (s.reg .B) (s.reg .C) s) := rfl
theorem exec_undef : exec (.undef op) s = .next s := rfl

end

/-- The state a meaning answers; later proofs split on the instruction here and nowhere else. -/
theorem exec_next_cases {i : Instr} {s t : State} (h : exec i s = .next t) :
    (∃ r v, t = s.setReg r v) ∨
    (∃ d, i = .mviM d ∧ t = s.writeByte (hl s) d) ∨
    (∃ v, i = .lxiSp v ∧ t = s.setSp v) ∨
    (∃ c b, i = .lxiB c b ∧ t = (s.setReg .C c).setReg .B b) ∨
    (i = .pushB ∧ t = pushPair Config.pushDiscipline (s.reg .B) (s.reg .C) s) ∨
    (∃ op, i = .undef op ∧ t = s) := by
  cases i <;> injection h with h <;> subst h
  case mviA d => exact .inl ⟨.A, d, rfl⟩
  case mviB d => exact .inl ⟨.B, d, rfl⟩
  case mviC d => exact .inl ⟨.C, d, rfl⟩
  case mviD d => exact .inl ⟨.D, d, rfl⟩
  case mviE d => exact .inl ⟨.E, d, rfl⟩
  case mviH d => exact .inl ⟨.H, d, rfl⟩
  case mviL d => exact .inl ⟨.L, d, rfl⟩
  case lda a => exact .inl ⟨.A, _, rfl⟩
  case mviM d => exact .inr (.inl ⟨d, rfl, rfl⟩)
  case lxiSp v => exact .inr (.inr (.inl ⟨v, rfl, rfl⟩))
  case lxiB c b => exact .inr (.inr (.inr (.inl ⟨c, b, rfl, rfl⟩)))
  case pushB => exact .inr (.inr (.inr (.inr (.inl ⟨rfl, rfl⟩))))
  case undef op => exact .inr (.inr (.inr (.inr (.inr ⟨op, rfl, rfl⟩))))

/-- A meaning moves neither PC nor a flag (40_fetch_execute.md R103, 10_state.md R26). -/
theorem exec_keeps_pc_flags {i : Instr} {s t : State} (h : exec i s = .next t) :
    t.pc = s.pc ∧ t.flags = s.flags := by
  obtain ⟨r, v, rfl⟩ | ⟨d, rfl, rfl⟩ | ⟨v, rfl, rfl⟩ | ⟨c, b, rfl, rfl⟩ | ⟨rfl, rfl⟩ | ⟨op, rfl, rfl⟩ :=
    exec_next_cases h <;> simp

/-- A step is the fetch of one instruction and its meaning (R101). -/
theorem step_eq_exec {s s' : State} {i : Instr} (h : fetchInstr s = (i, s')) : step s = exec i s' := by
  simp [step, h]

theorem step_of_f1 {s : State} {op : Byte} {i : Instr} (h : opcodeAt s = op)
    (hf : opcodeForm op = .f1 i) : step s = exec i (s.setPc (s.pc + 1)) :=
  step_eq_exec (fetchInstr_f1 (by rw [← hf, ← h]; rfl))

theorem step_of_f2 {s : State} {op : Byte} {mk : Byte → Instr} (h : opcodeAt s = op)
    (hf : opcodeForm op = .f2 mk) : step s = exec (mk (operandLo s)) (s.setPc (s.pc + 2)) :=
  step_eq_exec (fetchInstr_f2 (by rw [← hf, ← h]; rfl))

theorem step_of_f3 {s : State} {op : Byte} {mk : Byte → Byte → Instr} (h : opcodeAt s = op)
    (hf : opcodeForm op = .f3 mk) :
    step s = exec (mk (operandLo s) (operandHi s)) (s.setPc (s.pc + 3)) :=
  step_eq_exec (fetchInstr_f3 (by rw [← hf, ← h]; rfl))

/-- The state a step answers, by the opcode at PC (R101, R103): everything a step can do. -/
theorem step_cases (s : State) :
    (opcodeAt s = 0x3E#8 ∧ step s = .next ((s.setPc (s.pc + 2)).setReg .A (operandLo s))) ∨
    (opcodeAt s = 0x06#8 ∧ step s = .next ((s.setPc (s.pc + 2)).setReg .B (operandLo s))) ∨
    (opcodeAt s = 0x0E#8 ∧ step s = .next ((s.setPc (s.pc + 2)).setReg .C (operandLo s))) ∨
    (opcodeAt s = 0x16#8 ∧ step s = .next ((s.setPc (s.pc + 2)).setReg .D (operandLo s))) ∨
    (opcodeAt s = 0x1E#8 ∧ step s = .next ((s.setPc (s.pc + 2)).setReg .E (operandLo s))) ∨
    (opcodeAt s = 0x26#8 ∧ step s = .next ((s.setPc (s.pc + 2)).setReg .H (operandLo s))) ∨
    (opcodeAt s = 0x2E#8 ∧ step s = .next ((s.setPc (s.pc + 2)).setReg .L (operandLo s))) ∨
    (opcodeAt s = 0x36#8 ∧ step s = .next ((s.setPc (s.pc + 2)).writeByte (hl s) (operandLo s))) ∨
    (opcodeAt s = 0x3A#8 ∧ step s =
      .next ((s.setPc (s.pc + 3)).setReg .A (s.readByte (pair (operandHi s) (operandLo s))))) ∨
    (opcodeAt s = 0x31#8 ∧ step s =
      .next ((s.setPc (s.pc + 3)).setSp (pair (operandHi s) (operandLo s)))) ∨
    (opcodeAt s = 0x01#8 ∧ step s =
      .next (((s.setPc (s.pc + 3)).setReg .C (operandLo s)).setReg .B (operandHi s))) ∨
    (opcodeAt s = 0xC5#8 ∧ step s =
      .next (pushPair Config.pushDiscipline (s.reg .B) (s.reg .C) (s.setPc (s.pc + 1)))) ∨
    (opcodeAt s ∉ definedOpcodes ∧ step s = .next (s.setPc (s.pc + 1))) := by
  rcases opcode_cases (opcodeAt s) with h | h | h | h | h | h | h | h | h | h | h | h | h
  case inr.inr.inr.inr.inr.inr.inr.inr.inr.inr.inr.inr =>
    iterate 12 right
    exact ⟨h, step_of_f1 rfl (opcodeForm_undefined (by simpa using h))⟩
  all_goals simp only [h]
  all_goals simp +decide only [true_and, false_and, false_or, or_false]
  all_goals first
    | exact step_of_f1 h rfl
    | exact step_of_f2 h rfl
    | exact step_of_f3 h rfl

/-- Loading an image touches no register, flag, SP or PC (70_reset_and_hazards.md R185). -/
theorem loadImage_fields (image : List (Word × Byte)) (s : State) :
    (loadImage s image).regs = s.regs ∧ (loadImage s image).sp = s.sp ∧
      (loadImage s image).pc = s.pc ∧ (loadImage s image).flags = s.flags := by
  induction image generalizing s with
  | nil => exact ⟨rfl, rfl, rfl, rfl⟩
  | cons c image ih => simpa [loadImage] using ih (s.writeByte c.1 c.2)

/-- Loading an image keeps the canonical form. -/
theorem loadImage_wf (image : List (Word × Byte)) (s : State) (h : s.mem.wf = true) :
    (loadImage s image).mem.wf = true := by
  induction image generalizing s with
  | nil => exact h
  | cons c image ih => exact ih _ (Memory.wf_write s.mem c.1 c.2 h)

/-- Storing bytes touches memory only. -/
theorem storeBytes_fields (bs : List Byte) (s : State) (a : Word) :
    (storeBytes s a bs).regs = s.regs ∧ (storeBytes s a bs).sp = s.sp ∧
      (storeBytes s a bs).pc = s.pc ∧ (storeBytes s a bs).flags = s.flags := by
  induction bs generalizing s a with
  | nil => exact ⟨rfl, rfl, rfl, rfl⟩
  | cons b bs ih => simpa [storeBytes] using ih (s.writeByte a b) (a + 1)

/-- Storing bytes keeps the canonical form. -/
theorem storeBytes_wf (bs : List Byte) (s : State) (a : Word) (h : s.mem.wf = true) :
    (storeBytes s a bs).mem.wf = true := by
  induction bs generalizing s a with
  | nil => exact h
  | cons b bs ih => exact ih _ _ (Memory.wf_write s.mem a b h)

end Sys2Proof.Machine
end

