-- ==== Sys2Proof/Tests/Slice0.lean ====
section
/-! SUPPORT. Tests: the well-formedness smoke test, a word per constructor written out from 30_encoding.md
R84, single steps taken from 95_test_vectors.md, and a witness for every statement that has hypotheses. -/

namespace Sys2Proof.Tests

open Machine

/-- A small state: given registers, SP, PC and memory cells, everything else as after reset. -/
def mk (regs : Regs) (sp pc : Word) (cells : List (Word × Byte)) : State :=
  loadImage { State.reset with regs := regs, sp := sp, pc := pc } cells

def zeroRegs : Regs := State.reset.regs

/-- The reset state over a few memory cells. -/
def boot (cells : List (Word × Byte)) : State := launch cells

/-- The state a step answers, if it is a next state. -/
def after (s : State) : Option State :=
  match step s with
  | .next t => some t
  | .fault _ => none
  | .refused _ => none

/-! ### WellFormed: one check, which refuses a defined opcode inside `undef` -/

theorem test_wellFormed_refuses_undef_of_a_defined_opcode : (Instr.undef 0x3E#8).wellFormed = false := by
  decide
theorem test_wellFormed_accepts_an_undefined_opcode : (Instr.undef 0x76#8).wellFormed = true := by decide
theorem test_wellFormed_accepts_every_operand : (Instr.mviM 0xFF#8).wellFormed = true := by decide

/-! ### Decoding: every constructor's word, from the table of R84 -/

theorem test_decode_mviA : decode [0b00111110#8, 0x05#8] = .ok (.mviA 0x05#8, []) := rfl
theorem test_decode_mviB : decode [0b00000110#8, 0xB1#8] = .ok (.mviB 0xB1#8, []) := rfl
theorem test_decode_mviC : decode [0b00001110#8, 0xC2#8] = .ok (.mviC 0xC2#8, []) := rfl
theorem test_decode_mviD : decode [0b00010110#8, 0xD3#8] = .ok (.mviD 0xD3#8, []) := rfl
theorem test_decode_mviE : decode [0b00011110#8, 0xE4#8] = .ok (.mviE 0xE4#8, []) := rfl
theorem test_decode_mviH : decode [0b00100110#8, 0xF5#8] = .ok (.mviH 0xF5#8, []) := rfl
theorem test_decode_mviL : decode [0b00101110#8, 0x96#8] = .ok (.mviL 0x96#8, []) := rfl
theorem test_decode_mviM : decode [0b00110110#8, 0x25#8] = .ok (.mviM 0x25#8, []) := rfl
theorem test_decode_lda : decode [0b00111010#8, 0xD0#8, 0x07#8] = .ok (.lda 0x07D0#16, []) := rfl
theorem test_decode_lxiSp : decode [0b00110001#8, 0xCD#8, 0xAB#8] = .ok (.lxiSp 0xABCD#16, []) := rfl
theorem test_decode_lxiB : decode [0b00000001#8, 0x34#8, 0x12#8] = .ok (.lxiB 0x34#8 0x12#8, []) := rfl
theorem test_decode_pushB : decode [0b11000101#8] = .ok (.pushB, []) := rfl

/-- 0x11 has the bit shape of an LXI and is undefined (R82): one byte, its would-be operands left. -/
theorem test_decode_undef : decode [0x11#8, 0x34#8, 0x12#8] = .ok (.undef 0x11#8, [0x34#8, 0x12#8]) := rfl

theorem test_decode_refuses_no_byte : decode [] = .error .noOpcode := rfl
theorem test_decode_refuses_a_missing_operand : decode [0x3A#8, 0xD0#8] = .error (.missingOperand 0x3A#8) :=
  rfl

theorem test_encode_lda : encode (.lda 0x07D0#16) = [0x3A#8, 0xD0#8, 0x07#8] := by decide
theorem test_decodeTableWord_lxiB : decodeTableWord 24 0x123401 = some (.lxiB 0x34#8 0x12#8) := by decide
theorem test_withFetchWord_runs_first :
    (after (State.reset.withFetchWord 24 0x123401)).map (fun t => (t.regs.c, t.regs.b, t.pc)) =
      some (0x34#8, 0x12#8, 0x0003#16) := by decide

/-! ### Single steps, from the vectors of 95_test_vectors.md -/

/-- V-MVI-2. -/
theorem test_mviA_top_byte :
    (after (mk zeroRegs 0xFFFF#16 0x0100#16 [(0x0100#16, 0x3E#8), (0x0101#16, 0xFF#8)])).map
      (fun t => (t.regs.a, t.pc, t.flags.s)) = some (0xFF#8, 0x0102#16, false) := by decide
/-- V-MVI-9: the operand is fetched across the wrap. -/
theorem test_mviB_wraps :
    (after (mk zeroRegs 0xFFFF#16 0xFFFF#16 [(0xFFFF#16, 0x06#8), (0x0000#16, 0x7A#8)])).map
      (fun t => (t.regs.b, t.pc)) = some (0x7A#8, 0x0001#16) := by decide
/-- V-MVI-4. -/
theorem test_mviC : (after (boot [(0#16, 0x0E#8), (1#16, 0xC2#8)])).map (fun t => (t.regs.c, t.regs.b)) =
    some (0xC2#8, 0x00#8) := by decide
/-- V-MVI-5. -/
theorem test_mviD : (after (boot [(0#16, 0x16#8), (1#16, 0xD3#8)])).map (fun t => (t.regs.d, t.regs.e)) =
    some (0xD3#8, 0x00#8) := by decide
/-- V-MVI-6. -/
theorem test_mviE : (after (boot [(0#16, 0x1E#8), (1#16, 0xE4#8)])).map (fun t => (t.regs.e, t.regs.d)) =
    some (0xE4#8, 0x00#8) := by decide
/-- V-MVI-7. -/
theorem test_mviH : (after (boot [(0#16, 0x26#8), (1#16, 0xF5#8)])).map (fun t => (t.regs.h, t.regs.l)) =
    some (0xF5#8, 0x00#8) := by decide
/-- V-MVI-8. -/
theorem test_mviL : (after (mk { zeroRegs with h := 0x12#8 } 0xFFFF#16 0#16
    [(0#16, 0x2E#8), (1#16, 0x96#8)])).map (fun t => (t.regs.l, t.regs.h)) = some (0x96#8, 0x12#8) := by
  decide
/-- V-MVIM-1, the source's example S3. -/
theorem test_mviM : (after (mk { zeroRegs with h := 0x07#8, l := 0xD0#8 } 0xFFFF#16 0#16
    [(0#16, 0x36#8), (1#16, 0x25#8)])).map (fun t => (t.readByte 0x07D0#16, t.pc)) =
      some (0x25#8, 0x0002#16) := by decide
/-- V-MVIM-6: a stored zero. -/
theorem test_mviM_stores_zero : (after (mk { zeroRegs with h := 0x07#8, l := 0xD0#8 } 0xFFFF#16 0#16
    [(0#16, 0x36#8), (0x07D0#16, 0xFF#8)])).map (fun t => t.readByte 0x07D0#16) = some 0x00#8 := by decide
/-- V-LDA-4: the first operand byte is the low half of the address. -/
theorem test_lda_byte_order : (after (boot [(0#16, 0x3A#8), (1#16, 0x34#8), (2#16, 0x12#8),
    (0x1234#16, 0xAB#8), (0x3412#16, 0xCD#8)])).map (fun t => (t.regs.a, t.pc)) =
      some (0xAB#8, 0x0003#16) := by decide
/-- V-LDA-5: the operand straddles the wrap. -/
theorem test_lda_wraps : (after (mk zeroRegs 0xFFFF#16 0xFFFE#16 [(0xFFFE#16, 0x3A#8),
    (0xFFFF#16, 0x10#8), (0#16, 0x20#8), (0x2010#16, 0x77#8)])).map (fun t => (t.regs.a, t.pc)) =
      some (0x77#8, 0x0001#16) := by decide
/-- V-LXISP-4. -/
theorem test_lxiSp : (after (boot [(0#16, 0x31#8), (1#16, 0xCD#8), (2#16, 0xAB#8)])).map
    (fun t => (t.sp, t.pc)) = some (0xABCD#16, 0x0003#16) := by decide
/-- V-LXIB-3: both operand bytes after the wrap. -/
theorem test_lxiB_wraps : (after (mk zeroRegs 0xFFFF#16 0xFFFF#16 [(0xFFFF#16, 0x01#8),
    (0#16, 0xEF#8), (1#16, 0xBE#8)])).map (fun t => (t.regs.c, t.regs.b, t.pc)) =
      some (0xEF#8, 0xBE#8, 0x0002#16) := by decide
/-- V-PUSH-1, the source's example S6, which settles 90_conflicts.md C1. -/
theorem test_pushB : (after (mk { zeroRegs with b := 0x12#8, c := 0x34#8 } 0xFFFF#16 0x0040#16
    [(0x0040#16, 0xC5#8)])).map
      (fun t => (t.readByte 0xFFFF#16, t.readByte 0xFFFE#16, t.readByte 0xFFFD#16, t.sp, t.pc)) =
        some (0x00#8, 0x12#8, 0x34#8, 0xFFFD#16, 0x0041#16) := by decide
/-- V-PUSH-3: the second decrement wraps. -/
theorem test_pushB_wraps : (after (mk { zeroRegs with b := 0xAB#8, c := 0xCD#8 } 0x0001#16 0x0100#16
    [(0x0100#16, 0xC5#8)])).map (fun t => (t.readByte 0x0000#16, t.readByte 0xFFFF#16, t.sp)) =
      some (0xAB#8, 0xCD#8, 0xFFFF#16) := by decide
/-- V-UND-4: not a jump. -/
theorem test_undef : (after (mk zeroRegs 0x2000#16 0x0010#16 [(0x0010#16, 0xC3#8), (0x0011#16, 0x34#8),
    (0x0012#16, 0x12#8)])).map (fun t => (t.pc, t.sp)) = some (0x0011#16, 0x2000#16) := by decide
/-- V-UND-14: PC wraps on a one-byte step. -/
theorem test_undef_wraps : (after (mk zeroRegs 0xFFFF#16 0xFFFF#16 [(0xFFFF#16, 0xFF#8)])).map
    (fun t => t.pc) = some 0x0000#16 := by decide
/-- The transactions of V-MVIM-1. -/
theorem test_busTrace_mviM : busTrace (mk { zeroRegs with h := 0x07#8, l := 0xD0#8 } 0xFFFF#16 0#16
    [(0#16, 0x36#8), (1#16, 0x25#8)]) =
      [.read 0x0000#16 0x36#8, .read 0x0001#16 0x25#8, .write 0x07D0#16 0x25#8] := by decide
/-- The transactions of V-PUSH-2. -/
theorem test_busTrace_pushB : busTrace (mk { zeroRegs with b := 0xAB#8, c := 0xCD#8 } 0x2000#16 0x0100#16
    [(0x0100#16, 0xC5#8)]) =
      [.read 0x0100#16 0xC5#8, .write 0x1FFF#16 0xAB#8, .write 0x1FFE#16 0xCD#8] := by decide
/-- The rejected reading of V-PUSH-1 (95_test_vectors.md 2.6). -/
theorem test_rejected_push_discipline :
    let t := pushPairBC .postDecrement
      (mk { zeroRegs with b := 0x12#8, c := 0x34#8 } 0xFFFF#16 0x0040#16 [])
    (t.readByte 0xFFFF#16, t.readByte 0xFFFE#16, t.readByte 0xFFFD#16, t.sp) =
      (0x12#8, 0x34#8, 0x00#8, 0xFFFD#16) := by decide

/-! ### Witnesses: a state and operands that meet a statement's hypotheses, clause by clause -/

/-- A state at PC 0xFFFF whose opcode is `op`, its operand bytes after the wrap. -/
def atTop (op : Byte) : State :=
  mk zeroRegs 0x0001#16 0xFFFF#16 [(0xFFFF#16, op), (0#16, 0xFF#8), (1#16, 0x12#8)]

theorem test_witness_StepOfMviRegister :
    opcodeAt (atTop 0x3E#8) = 0x3E#8 ∧ opcodeAt (atTop 0x06#8) = 0x06#8 ∧
    opcodeAt (atTop 0x0E#8) = 0x0E#8 ∧ opcodeAt (atTop 0x16#8) = 0x16#8 ∧
    opcodeAt (atTop 0x1E#8) = 0x1E#8 ∧ opcodeAt (atTop 0x26#8) = 0x26#8 ∧
    opcodeAt (atTop 0x2E#8) = 0x2E#8 := by decide
theorem test_witness_StepOfMviM : opcodeAt (atTop 0x36#8) = 0x36#8 := by decide
theorem test_witness_StepOfLda : opcodeAt (atTop 0x3A#8) = 0x3A#8 ∧
    (0x12FF#16 : Word).toNat =
      (operandHi (atTop 0x3A#8)).toNat * 256 + (operandLo (atTop 0x3A#8)).toNat := by decide
theorem test_witness_StepOfLxiSp : opcodeAt (atTop 0x31#8) = 0x31#8 ∧
    (0x12FF#16 : Word).toNat =
      (operandHi (atTop 0x31#8)).toNat * 256 + (operandLo (atTop 0x31#8)).toNat := by decide
theorem test_witness_StepOfLxiB : opcodeAt (atTop 0x01#8) = 0x01#8 := by decide
theorem test_witness_StepOfPushB : opcodeAt (atTop 0xC5#8) = 0xC5#8 := by decide
theorem test_witness_PushedPairIsLittleEndian : opcodeAt (atTop 0xC5#8) = 0xC5#8 := by decide
theorem test_witness_StepOfUndefinedOpcode :
    opcodeAt (atTop 0x00#8) ∉ definedOpcodes ∧ opcodeAt (atTop 0xFF#8) ∉ definedOpcodes := by decide

theorem test_witness_StepRunsTheDecodedInstruction : WellFormed (.mviA 0xFF#8) ∧
    ∀ k b, (encode (.mviA 0xFF#8))[k]? = some b →
      (atTop 0x3E#8).readByte ((atTop 0x3E#8).pc + BitVec.ofNat 16 k) = b := by
  refine ⟨rfl, fun k b h => ?_⟩
  match k with
  | 0 => exact Option.some.inj h
  | 1 => exact Option.some.inj h
  | k + 2 => simp [encode] at h

theorem test_witness_DecodeOfEncodeIsTheInstruction :
    WellFormed (.lda 0xFFFF#16) ∧ WellFormed (.undef 0x00#8) ∧ WellFormed (.undef 0xFF#8) := by decide
theorem test_witness_EncodeOfDecodeIsTheBytes :
    decode [0x31#8, 0xFF#8, 0x00#8, 0x77#8] = .ok (.lxiSp 0x00FF#16, [0x77#8]) := rfl
theorem test_witness_EveryOpcodeByteDecodes :
    (0x00#8 : Byte) ∉ definedOpcodes ∧ (0xFF#8 : Byte) ∉ definedOpcodes ∧
    (0x01#8 : Byte) ∈ definedOpcodes ∧ (0xC5#8 : Byte) ∈ definedOpcodes := by decide
theorem test_witness_LengthIsFixedByTheOpcode :
    decode [0x3E#8, 0xFF#8] = .ok (.mviA 0xFF#8, []) := rfl
theorem test_witness_FetchReadsThenAdvancesPc : (atTop 0x3E#8).pc = 0xFFFF#16 := by decide
theorem test_witness_RegistersAreWrittenOnlyByTheirWriters :
    opcodeAt (atTop 0x3E#8) ∉ registerWriters .B ∧ opcodeAt (atTop 0x00#8) ∉ registerWriters .A := by decide
theorem test_witness_RegistersAreReadOnlyByTheirReaders :
    opcodeAt (atTop 0xC5#8) ∉ registerReaders .A ∧ opcodeAt (atTop 0x36#8) ∉ registerReaders .B := by decide
theorem test_witness_SpIsTouchedOnlyByLxiSpAndPushB :
    opcodeAt (atTop 0x36#8) ≠ 0x31#8 ∧ opcodeAt (atTop 0x36#8) ≠ 0xC5#8 ∧
    opcodeAt (atTop 0x31#8) ≠ 0xC5#8 := by decide
theorem test_witness_MemoryIsWrittenOnlyByMviMAndPushB :
    (∃ t, step (atTop 0x3A#8) = .next t) ∧ opcodeAt (atTop 0x3A#8) ≠ 0x36#8 ∧
    opcodeAt (atTop 0x3A#8) ≠ 0xC5#8 ∧
    (∃ t, step (atTop 0x36#8) = .next t) ∧ opcodeAt (atTop 0x36#8) = 0x36#8 ∧
    (0xFFFF#16 : Word) ≠ hl (atTop 0x36#8) ∧
    (∃ t, step (atTop 0xC5#8) = .next t) ∧ opcodeAt (atTop 0xC5#8) = 0xC5#8 ∧
    (0x0001#16 : Word) ≠ (atTop 0xC5#8).sp - 1 ∧ (0x0001#16 : Word) ≠ (atTop 0xC5#8).sp - 2 :=
  ⟨⟨_, rfl⟩, by decide, by decide, ⟨_, rfl⟩, by decide, by decide, ⟨_, rfl⟩, by decide, by decide,
    by decide⟩
theorem test_witness_MemoryAfterAStepIsItsTransactionsReplayed : ∃ t, step (atTop 0xC5#8) = .next t :=
  ⟨_, rfl⟩

/-- The two memories differ in a cell the step does not read. -/
theorem test_witness_StepDependsOnlyOnTheCellsItReads :
    (atTop 0x3A#8).mem.write 0x4000#16 0x55#8 ≠ (atTop 0x3A#8).mem ∧
    ∀ a v, .read a v ∈ busTrace (atTop 0x3A#8) →
      ((atTop 0x3A#8).mem.write 0x4000#16 0x55#8).read a = v := by
  refine ⟨by decide, fun a v h => ?_⟩
  have e : busTrace (atTop 0x3A#8) = [.read 0xFFFF#16 0x3A#8, .read 0x0000#16 0xFF#8,
    .read 0x0001#16 0x12#8, .read 0x12FF#16 0x00#8] := by decide
  rw [e] at h
  simp only [List.mem_cons, Transaction.read.injEq, List.not_mem_nil, or_false] at h
  obtain ⟨rfl, rfl⟩ | ⟨rfl, rfl⟩ | ⟨rfl, rfl⟩ | ⟨rfl, rfl⟩ := h <;> decide

/-- MVI M just below the top, storing into the next opcode's cell. -/
def storesAhead (d : Byte) : State :=
  mk { zeroRegs with h := 0xFF#8, l := 0xFF#8 } 0xFFFF#16 0xFFFD#16 [(0xFFFD#16, 0x36#8), (0xFFFE#16, d)]

theorem test_witness_StoredByteIsTheNextOpcode :
    (opcodeAt (storesAhead 0x3E#8) = 0x36#8 ∧
      hl (storesAhead 0x3E#8) = (storesAhead 0x3E#8).pc + 2 ∧
      operandLo (storesAhead 0x3E#8) = 0x3E#8) ∧
    (opcodeAt (mk zeroRegs 0x0000#16 0xFFFE#16 [(0xFFFE#16, 0xC5#8)]) = 0xC5#8 ∧
      (0x0000#16 : Word) - 1 = 0xFFFE#16 + 1) ∧
    (opcodeAt (mk zeroRegs 0x0001#16 0xFFFE#16 [(0xFFFE#16, 0xC5#8)]) = 0xC5#8 ∧
      (0x0001#16 : Word) - 2 = 0xFFFE#16 + 1) := by decide

/-- MVI M and then an LDA of the cell at `addr`, with HL = 0. -/
def storeThenLoad (lo hi : Byte) : State :=
  mk zeroRegs 0xFFFF#16 0x0100#16 [(0x0100#16, 0x36#8), (0x0101#16, 0x77#8), (0x0102#16, 0x3A#8),
    (0x0103#16, lo), (0x0104#16, hi)]

theorem test_witness_LoadAfterStoreReturnsTheLatestWrite :
    (let s := storeThenLoad 0x00#8 0x00#8
     opcodeAt s = 0x36#8 ∧ s.readByte (s.pc + 2) = 0x3A#8 ∧ hl s ≠ s.pc + 2 ∧ hl s ≠ s.pc + 3 ∧
      hl s ≠ s.pc + 4 ∧ hl s = pair (s.readByte (s.pc + 4)) (s.readByte (s.pc + 3))) ∧
    (let s := storeThenLoad 0x01#8 0x00#8
     opcodeAt s = 0x36#8 ∧ s.readByte (s.pc + 2) = 0x3A#8 ∧ hl s ≠ s.pc + 2 ∧ hl s ≠ s.pc + 3 ∧
      hl s ≠ s.pc + 4 ∧ hl s ≠ pair (s.readByte (s.pc + 4)) (s.readByte (s.pc + 3))) := by decide

theorem test_witness_LxiBThenPushBKeepsTheByteOrder :
    let s := boot [(0#16, 0x01#8), (1#16, 0x34#8), (2#16, 0x12#8), (3#16, 0xC5#8)]
    opcodeAt s = 0x01#8 ∧ s.readByte (s.pc + 3) = 0xC5#8 := by decide
theorem test_witness_TwoPushesStackDownward :
    let s := boot [(0#16, 0xC5#8), (1#16, 0xC5#8)]
    opcodeAt s = 0xC5#8 ∧ operandLo s = 0xC5#8 ∧ s.sp - 1 ≠ s.pc + 1 ∧ s.sp - 2 ≠ s.pc + 1 := by decide
theorem test_witness_PushDisciplinesDifferOnlyAroundTheOldSp :
    let s := atTop 0xC5#8
    (0x0002#16 : Word) ≠ s.sp ∧ (0x0002#16 : Word) ≠ s.sp - 1 ∧ (0x0002#16 : Word) ≠ s.sp - 2 := by decide
theorem test_witness_WriteSetsOneCell : (0x0000#16 : Word) ≠ 0xFFFF#16 := by decide
theorem test_witness_RewritingAHeldByteChangesNothing : StateInvariant (atTop 0x3A#8) :=
  loadImage_wf _ _ rfl
theorem test_witness_CanonicalMemoriesWithEqualReadsAreEqual :
    Memory.wf [(0, 0x01#8), (65535, 0xFF#8)] = true ∧
    ∀ a, Memory.read [(0, 0x01#8), (65535, 0xFF#8)] a = Memory.read [(0, 0x01#8), (65535, 0xFF#8)] a :=
  ⟨by decide, fun _ => rfl⟩
theorem test_witness_ZeroMemoryIsWalkedOneByteAStep : ∀ a, State.reset.readByte a = 0x00#8 := fun _ => rfl
theorem test_witness_EveryStepKeepsTheInvariant :
    StateInvariant (atTop 0xC5#8) ∧ ∃ t, step (atTop 0xC5#8) = .next t := ⟨loadImage_wf _ _ rfl, _, rfl⟩
theorem test_witness_EveryReachableStateIsCanonicalWithFlagsClear :
    Reachable (hostReset (boot [(0#16, 0x76#8)])) := .reset (.launch _)

/-- The check on a memory refuses a listed zero, a repeated address and an address past 65535. -/
theorem test_memory_wf_refuses : Memory.wf [(5, 0x00#8)] = false ∧
    Memory.wf [(5, 0x01#8), (5, 0x02#8)] = false ∧ Memory.wf [(65536, 0x01#8)] = false := by decide

end Sys2Proof.Tests
end

section
/-! SUPPORT. How register writes commute with the other updates. -/

namespace Sys2Proof.Machine

section
variable (s : State) (r q : Reg) (v u : Byte) (w a : Word)

/-- Of two writes to one register the later counts; writes to two registers commute (10_state.md R20). -/
theorem State.setReg_setReg :
    (s.setReg r v).setReg q u = if r = q then s.setReg q u else (s.setReg q u).setReg r v := by
  cases r <;> cases q <;> rfl

theorem State.setReg_setPc : (s.setReg r v).setPc w = (s.setPc w).setReg r v := by cases r <;> rfl
theorem State.setReg_setSp : (s.setReg r v).setSp w = (s.setSp w).setReg r v := by cases r <;> rfl
theorem State.setReg_writeByte :
    (s.setReg r v).writeByte a u = (s.writeByte a u).setReg r v := by cases r <;> rfl

/-- What is pushed is given, so a push reads no register. -/
theorem setReg_pushPair (p : Config.PushDiscipline) (high low : Byte) :
    pushPair p high low (s.setReg r v) = (pushPair p high low s).setReg r v := by
  cases p <;> cases r <;> rfl

/-- HL is read from H and L alone (10_state.md R22). -/
theorem hl_setReg (hh : r ≠ .H) (hl' : r ≠ .L) : hl (s.setReg r v) = hl s := by
  simp [hl, hh.symm, hl'.symm]

end

end Sys2Proof.Machine
end

section
/-! SUPPORT. A canonical memory is determined by what it reads (log entry 14). -/

namespace Sys2Proof.Machine

/-- Below its first entry a canonical memory lists nothing. -/
theorem Memory.read_of_lt {m : Memory} {low : Nat} (h : m.wfFrom low = true) {a : Word}
    (ha : a.toNat < low) : m.read a = Config.unlistedByte := by
  induction m generalizing low with
  | nil => rfl
  | cons c m ih =>
    obtain ⟨hlow, -, -, hm⟩ := (Memory.wfFrom_cons ..).1 h
    rw [Memory.read, if_neg (by omega), ih hm (by omega)]

section
variable {c : Host.Cell} {m : Memory} {low : Nat} (h : Memory.wfFrom low (c :: m) = true)
include h

theorem Memory.wfFrom_head : Memory.wfFrom c.1 (c :: m) = true := by
  obtain ⟨-, hrest⟩ := (Memory.wfFrom_cons ..).1 h
  exact (Memory.wfFrom_cons ..).2 ⟨le_rfl, hrest⟩

/-- The first entry names a cell of the machine, and what it lists is what the cell reads. -/
theorem Memory.read_head :
    ∃ a : Word, a.toNat = c.1 ∧ Memory.read (c :: m) a = c.2 ∧ c.2 ≠ Config.unlistedByte := by
  obtain ⟨-, hlt, hne, -⟩ := (Memory.wfFrom_cons ..).1 h
  have ha : (BitVec.ofNat 16 c.1).toNat = c.1 := Nat.mod_eq_of_lt hlt
  exact ⟨BitVec.ofNat 16 c.1, ha, by rw [Memory.read, if_pos ha.symm], hne⟩

theorem Memory.read_tail (a : Word) :
    m.read a = if c.1 = a.toNat then Config.unlistedByte else Memory.read (c :: m) a := by
  obtain ⟨-, -, -, hm⟩ := (Memory.wfFrom_cons ..).1 h
  split
  next ha => exact Memory.read_of_lt hm (by omega)
  next ha => rw [Memory.read, if_neg ha]

/-- A canonical memory with the same reads cannot begin above the first entry. -/
theorem Memory.low_le_head {m' : Memory} {low' : Nat} (h' : m'.wfFrom low' = true)
    (heq : ∀ a, Memory.read (c :: m) a = m'.read a) : low' ≤ c.1 := by
  obtain ⟨a, ha, hread, hne⟩ := Memory.read_head h
  by_contra hlt
  exact hne (by rw [← hread, heq, Memory.read_of_lt h' (by omega)])

end

/-- Two canonical memories with the same reads agree entry by entry: neither can begin above the other, and
the tails again read the same. -/
theorem Memory.eq_of_read_eq {m m' : Memory} {low low' : Nat} (h : m.wfFrom low = true)
    (h' : m'.wfFrom low' = true) (heq : ∀ a, m.read a = m'.read a) : m = m' := by
  induction m generalizing m' low low' with
  | nil =>
    cases m' with
    | nil => rfl
    | cons c' m' =>
      have hle : c'.1 + 1 ≤ c'.1 := Memory.low_le_head h' rfl fun a => (heq a).symm
      omega
  | cons c m ih =>
    cases m' with
    | nil =>
      have hle : c.1 + 1 ≤ c.1 := Memory.low_le_head h rfl heq
      omega
    | cons c' m' =>
      have hle : c'.1 ≤ c.1 := Memory.low_le_head h (Memory.wfFrom_head h') heq
      have hge : c.1 ≤ c'.1 := Memory.low_le_head h' (Memory.wfFrom_head h) fun a => (heq a).symm
      have haddr : c.1 = c'.1 := le_antisymm hge hle
      have hbyte : c.2 = c'.2 := by
        obtain ⟨a, ha, hread, -⟩ := Memory.read_head h
        rw [← hread, heq, Memory.read, if_pos (by omega)]
      obtain ⟨-, -, -, hm⟩ := (Memory.wfFrom_cons ..).1 h
      obtain ⟨-, -, -, hm'⟩ := (Memory.wfFrom_cons ..).1 h'
      have htail : m = m' := ih hm hm' fun a => by
        rw [Memory.read_tail h, Memory.read_tail h', haddr, heq]
      rw [Prod.ext haddr hbyte, htail]

end Sys2Proof.Machine
end

section
/-! SUPPORT. Which opcodes the register tables of 10_state.md R21 list. -/

namespace Sys2Proof

open Machine

section
variable (r : Reg)

theorem lxiB_mem_registerWriters : 0x01#8 ∈ registerWriters r ↔ r = .B ∨ r = .C := by
  cases r <;> decide
@[simp] theorem lxiSp_notMem_registerWriters : 0x31#8 ∉ registerWriters r := by cases r <;> decide
@[simp] theorem mviM_notMem_registerWriters : 0x36#8 ∉ registerWriters r := by cases r <;> decide
@[simp] theorem pushB_notMem_registerWriters : 0xC5#8 ∉ registerWriters r := by cases r <;> decide

theorem mviM_mem_registerReaders : 0x36#8 ∈ registerReaders r ↔ r = .H ∨ r = .L := by
  cases r <;> decide
theorem pushB_mem_registerReaders : 0xC5#8 ∈ registerReaders r ↔ r = .B ∨ r = .C := by
  cases r <;> decide

theorem registerWriters_subset_definedOpcodes : registerWriters r ⊆ definedOpcodes := by
  cases r <;> decide

end

end Sys2Proof
end

section
/-! SUPPORT. The effect of a step, as a function of the whole state before it. -/

namespace Sys2Proof.Machine

/-- `s'` fetches what `s` fetches: same PC, same memory. Registers, SP and flags may differ. -/
structure SameCode (s s' : State) : Prop where
  pc : s'.pc = s.pc
  mem : s'.mem = s.mem

section
variable {s s' : State} (h : SameCode s s')
include h

theorem SameCode.readByte (a : Word) : s'.readByte a = s.readByte a := by
  simp [State.readByte, h.mem]
theorem SameCode.opcodeAt : opcodeAt s' = opcodeAt s := by
  simp [Sys2Proof.opcodeAt, h.readByte, h.pc]
theorem SameCode.operandLo : operandLo s' = operandLo s := by
  simp [Sys2Proof.operandLo, h.readByte, h.pc]
theorem SameCode.operandHi : operandHi s' = operandHi s := by
  simp [Sys2Proof.operandHi, h.readByte, h.pc]

end

theorem SameCode.refl (s : State) : SameCode s s := ⟨rfl, rfl⟩
theorem SameCode.setReg (s : State) (r : Reg) (v : Byte) : SameCode s (s.setReg r v) := by
  constructor <;> simp
theorem SameCode.setSp (s : State) (v : Word) : SameCode s (s.setSp v) := ⟨rfl, rfl⟩
theorem SameCode.setFlags (s : State) (f : Flags) : SameCode s { s with flags := f } := ⟨rfl, rfl⟩

theorem step_of_lxiB {s : State} (h : opcodeAt s = 0x01#8) :
    step s = .next (((s.setPc (s.pc + 3)).setReg .C (operandLo s)).setReg .B (operandHi s)) :=
  step_of_f3 h rfl

theorem step_of_pushB {s : State} (h : opcodeAt s = 0xC5#8) :
    step s = .next (pushPair .preDecrement (s.reg .B) (s.reg .C) (s.setPc (s.pc + 1))) :=
  step_of_f1 h rfl

/-- What an instruction with opcode `op` can make of a state, once its bytes are fetched and PC becomes `w`:
six kinds, of which only the store reads H and L, and only the push reads B, C and SP. -/
inductive Effect (op : Byte) : (State → State) → Prop
  /-- MVI r and LDA: `q` is the one register the opcode is listed as writing. -/
  | loadReg (w : Word) (q : Reg) (v : Byte) (hop : ∀ r, op ∈ registerWriters r ↔ r = q) :
      Effect op fun s => (s.setPc w).setReg q v
  /-- MVI M. -/
  | store (w : Word) (d : Byte) (hop : op = 0x36#8) :
      Effect op fun s => (s.setPc w).writeByte (hl s) d
  /-- LXI SP. -/
  | loadSp (w v : Word) (hop : op = 0x31#8) : Effect op fun s => (s.setPc w).setSp v
  /-- LXI B. -/
  | loadPair (w : Word) (c b : Byte) (hop : op = 0x01#8) :
      Effect op fun s => ((s.setPc w).setReg .C c).setReg .B b
  /-- PUSH B. -/
  | push (w : Word) (hop : op = 0xC5#8) :
      Effect op fun s => pushPair .preDecrement (s.reg .B) (s.reg .C) (s.setPc w)
  /-- The undefined opcodes. -/
  | nothing (w : Word) (hop : op ∉ definedOpcodes) : Effect op fun s => s.setPc w

/-- The steps from the states with the code of `s` all have one effect, of a kind the opcode allows. -/
def HasEffect (s : State) : Prop :=
  ∃ eff, Effect (opcodeAt s) eff ∧ ∀ s', SameCode s s' → step s' = .next (eff s')

theorem hasEffect_of_mvi {s : State} {op : Byte} {mk : Byte → Instr} {q : Reg} (h : opcodeAt s = op)
    (hf : opcodeForm op = .f2 mk) (hw : ∀ r, op ∈ registerWriters r ↔ r = q)
    (hx : ∀ d t, exec (mk d) t = .next (t.setReg q d)) : HasEffect s := by
  refine ⟨_, .loadReg (s.pc + 2) q (operandLo s) (h ▸ hw), fun s' hs => ?_⟩
  rw [step_of_f2 (hs.opcodeAt.trans h) hf, hx, hs.pc, hs.operandLo]

theorem hasEffect_of_lda {s : State} (h : opcodeAt s = 0x3A#8) : HasEffect s := by
  refine ⟨_, .loadReg (s.pc + 3) .A (s.readByte (pair (operandHi s) (operandLo s)))
    (h ▸ fun r => by cases r <;> decide), fun s' hs => ?_⟩
  rw [step_of_f3 (hs.opcodeAt.trans h) rfl, exec_lda, hs.pc, hs.operandLo, hs.operandHi,
    State.readByte_setPc, hs.readByte]

theorem hasEffect_of_mviM {s : State} (h : opcodeAt s = 0x36#8) : HasEffect s := by
  refine ⟨_, .store (s.pc + 2) (operandLo s) h, fun s' hs => ?_⟩
  rw [step_of_f2 (hs.opcodeAt.trans h) rfl, exec_mviM, hs.pc, hs.operandLo, hl_setPc]

theorem hasEffect_of_lxiSp {s : State} (h : opcodeAt s = 0x31#8) : HasEffect s := by
  refine ⟨_, .loadSp (s.pc + 3) (pair (operandHi s) (operandLo s)) h, fun s' hs => ?_⟩
  rw [step_of_f3 (hs.opcodeAt.trans h) rfl, exec_lxiSp, hs.pc, hs.operandLo, hs.operandHi]

theorem hasEffect_of_lxiB {s : State} (h : opcodeAt s = 0x01#8) : HasEffect s := by
  refine ⟨_, .loadPair (s.pc + 3) (operandLo s) (operandHi s) h, fun s' hs => ?_⟩
  rw [step_of_lxiB (hs.opcodeAt.trans h), hs.pc, hs.operandLo, hs.operandHi]

theorem hasEffect_of_pushB {s : State} (h : opcodeAt s = 0xC5#8) : HasEffect s := by
  refine ⟨_, .push (s.pc + 1) h, fun s' hs => ?_⟩
  rw [step_of_pushB (hs.opcodeAt.trans h), hs.pc]

theorem hasEffect_of_undefined {s : State} (h : opcodeAt s ∉ definedOpcodes) : HasEffect s := by
  refine ⟨_, .nothing (s.pc + 1) h, fun s' hs => ?_⟩
  rw [step_of_f1 hs.opcodeAt (opcodeForm_undefined (by simpa using h)), exec_undef, hs.pc]

/-- Every step has an effect of one of the six kinds (40_fetch_execute.md R101, R105). -/
theorem hasEffect (s : State) : HasEffect s := by
  rcases opcode_cases (opcodeAt s) with h | h | h | h | h | h | h | h | h | h | h | h | h
  · exact hasEffect_of_lxiB h
  · exact hasEffect_of_mvi h rfl (fun r => by cases r <;> decide) exec_mviB
  · exact hasEffect_of_mvi h rfl (fun r => by cases r <;> decide) exec_mviC
  · exact hasEffect_of_mvi h rfl (fun r => by cases r <;> decide) exec_mviD
  · exact hasEffect_of_mvi h rfl (fun r => by cases r <;> decide) exec_mviE
  · exact hasEffect_of_mvi h rfl (fun r => by cases r <;> decide) exec_mviH
  · exact hasEffect_of_mvi h rfl (fun r => by cases r <;> decide) exec_mviL
  · exact hasEffect_of_lxiSp h
  · exact hasEffect_of_mviM h
  · exact hasEffect_of_lda h
  · exact hasEffect_of_mvi h rfl (fun r => by cases r <;> decide) exec_mviA
  · exact hasEffect_of_pushB h
  · exact hasEffect_of_undefined h

/-- The effect as an inversion lemma, for a step known by its answer. -/
theorem exists_effect_of_step {s t : State} (h : step s = .next t) :
    ∃ eff, Effect (opcodeAt s) eff ∧ t = eff s := by
  obtain ⟨eff, heff, hnext⟩ := hasEffect s
  exact ⟨eff, heff, Host.Outcome.next.inj (h.symm.trans (hnext s (.refl s)))⟩

section
variable {op : Byte} {eff : State → State} (h : Effect op eff) (s : State)
include h

theorem Effect.flags : (eff s).flags = s.flags := by
  cases h <;> simp

/-- No effect depends on a flag (10_state.md R26). -/
theorem Effect.setFlags (f : Flags) : eff { s with flags := f } = { eff s with flags := f } := by
  cases h with
  | loadReg w q v => cases q <;> rfl
  | store | loadSp | loadPair | push | nothing => rfl

theorem Effect.wf_mem (hwf : s.mem.wf = true) : (eff s).mem.wf = true := by
  cases h with
  | store w d => exact Memory.wf_write _ _ _ hwf
  | push w => exact Memory.wf_write _ _ _ (Memory.wf_write _ _ _ hwf)
  | loadReg | loadSp | loadPair | nothing => simpa using hwf

theorem Effect.reg_of_notMem_writers {r : Reg} (hr : op ∉ registerWriters r) :
    (eff s).reg r = s.reg r := by
  cases h with
  | loadReg w q v hop =>
    have hne : r ≠ q := fun e => hr ((hop r).2 e)
    simp [hne]
  | loadPair w c b hop =>
    subst hop
    obtain ⟨hB, hC⟩ := not_or.1 (mt (lxiB_mem_registerWriters r).2 hr)
    simp [hB, hC]
  | push => cases r <;> rfl
  | store | loadSp | nothing => simp

/-- Another value in a register no reader of which runs is overwritten or left where it is
(10_state.md R21). -/
theorem Effect.setReg {r : Reg} (hr : op ∉ registerReaders r) (v : Byte) :
    eff (s.setReg r v) = if op ∈ registerWriters r then eff s else (eff s).setReg r v := by
  cases h with
  | loadReg w q u hop =>
    beta_reduce
    rw [State.setReg_setPc, State.setReg_setReg]
    simp only [hop]
  | store w d hop =>
    subst hop
    obtain ⟨hH, hL⟩ := not_or.1 (mt (mviM_mem_registerReaders r).2 hr)
    simp [hl_setReg _ _ _ hH hL, State.setReg_setPc, State.setReg_writeByte]
  | loadSp w u hop => simp [hop, State.setReg_setPc, State.setReg_setSp]
  | loadPair w c b hop =>
    simp only [hop, lxiB_mem_registerWriters, State.setReg_setPc]
    cases r <;> rfl
  | push w hop =>
    subst hop
    obtain ⟨hB, hC⟩ := not_or.1 (mt (pushB_mem_registerReaders r).2 hr)
    simp [Ne.symm hB, Ne.symm hC, State.setReg_setPc, setReg_pushPair]
  | nothing w hop =>
    rw [if_neg fun hw => hop (registerWriters_subset_definedOpcodes r hw)]
    exact State.setReg_setPc s r v w

theorem Effect.sp_of_ne (hsp : op ≠ 0x31#8) (hpush : op ≠ 0xC5#8) : (eff s).sp = s.sp := by
  cases h with
  | loadSp w v hop => exact absurd hop hsp
  | push w hop => exact absurd hop hpush
  | loadReg | store | loadPair | nothing => simp

/-- Another SP is overwritten by LXI SP and left where it is by all others but PUSH B (10_state.md R24). -/
theorem Effect.setSp (hpush : op ≠ 0xC5#8) (v : Word) :
    eff (s.setSp v) = if op = 0x31#8 then eff s else (eff s).setSp v := by
  cases h with
  | loadReg w q u hop =>
    have hsp : op ≠ 0x31#8 := fun e => lxiSp_notMem_registerWriters q (e ▸ (hop q).2 rfl)
    rw [if_neg hsp, State.setReg_setSp]; rfl
  | store w d hop => subst hop; rfl
  | loadSp w u hop => subst hop; rfl
  | loadPair w c b hop => subst hop; rfl
  | push w hop => exact absurd hop hpush
  | nothing w hop =>
    have hsp : op ≠ 0x31#8 := fun e => hop (e ▸ by decide)
    rw [if_neg hsp]; rfl

end

end Sys2Proof.Machine
end

section
/-! Claims of the family 10_state.md, each from the laws above. -/

namespace Sys2Proof

open Machine

/-- Settles O51: the two kinds of effect that touch memory do it by canonical writes. -/
theorem everyStepKeepsTheInvariant : Obligations.EveryStepKeepsTheInvariant := by
  intro s t hs hstep
  obtain ⟨eff, heff, rfl⟩ := exists_effect_of_step hstep
  exact heff.wf_mem s hs

/-- Settles O27: an effect carries the flags along, whatever they are. -/
theorem flagsAreNeitherReadNorWritten : Obligations.FlagsAreNeitherReadNorWritten := by
  intro s f
  obtain ⟨eff, heff, hnext⟩ := hasEffect s
  refine ⟨eff s, hnext s (.refl s), heff.flags s, ?_⟩
  rw [hnext _ (.setFlags s f), heff.setFlags]

/-- Settles O28, by the kinds of effect. -/
theorem registersAreWrittenOnlyByTheirWriters :
    Obligations.RegistersAreWrittenOnlyByTheirWriters := by
  intro s r
  obtain ⟨eff, heff, hnext⟩ := hasEffect s
  exact ⟨eff s, hnext s (.refl s), heff.reg_of_notMem_writers s⟩

/-- Settles O29: the second step is the first one, with `v` in the register unless the step writes it. -/
theorem registersAreReadOnlyByTheirReaders : Obligations.RegistersAreReadOnlyByTheirReaders := by
  intro s r v hr
  obtain ⟨eff, heff, hnext⟩ := hasEffect s
  refine ⟨eff s, eff (s.setReg r v), hnext s (.refl s), hnext _ (.setReg s r v), ?_⟩
  rw [heff.setReg s hr v]
  split
  · simp
  · simp +contextual

/-- Settles O30, by the kinds of effect. -/
theorem spIsTouchedOnlyByLxiSpAndPushB : Obligations.SpIsTouchedOnlyByLxiSpAndPushB := by
  intro s
  obtain ⟨eff, heff, hnext⟩ := hasEffect s
  refine ⟨eff s, hnext s (.refl s), heff.sp_of_ne s, fun hpush v => ?_⟩
  exact (hnext _ (.setSp s v)).trans (congrArg _ (heff.setSp s hpush v))

/-- Settles O38: LXI B leaves SP and memory alone, so PUSH B runs next and finds the bytes in B and C. -/
theorem lxiBThenPushBKeepsTheByteOrder : Obligations.LxiBThenPushBKeepsTheByteOrder := by
  intro s hlxi hpush
  have habove : s.sp - 2 + 1 = s.sp - 1 := by bv_omega
  refine ⟨_, _, step_of_lxiB hlxi, step_of_pushB (by simpa [opcodeAt] using hpush), ?_, ?_, ?_, ?_⟩
  · simp [BitVec.add_assoc]
  · simp
  · simp [pushPair_readByte_pre]
  · simp only [pushPair_sp, State.setPc_sp, State.setReg_sp, habove]
    simp [pushPair_readByte_pre]

/-- Settles O44, by induction on the two lists. -/
theorem canonicalMemoriesWithEqualReadsAreEqual :
    Obligations.CanonicalMemoriesWithEqualReadsAreEqual :=
  fun _ _ h h' heq => Memory.eq_of_read_eq h h' heq

/-- Settles O52, by induction on how the state was reached: launch and reset clear the flags and no step
sets one; loading and stepping keep memory canonical and reset does not touch it. -/
theorem everyReachableStateIsCanonicalWithFlagsClear :
    Obligations.EveryReachableStateIsCanonicalWithFlagsClear := by
  intro s hs
  induction hs with
  | launch image =>
    obtain ⟨-, -, -, hflags⟩ := loadImage_fields image State.reset
    exact ⟨loadImage_wf image _ Memory.wf_reset, hflags⟩
  | @step s t _ hstep ih =>
    obtain ⟨hwf, hclear⟩ := ih
    obtain ⟨eff, heff, rfl⟩ := exists_effect_of_step hstep
    exact ⟨heff.wf_mem s hwf, (heff.flags s).trans hclear⟩
  | reset _ ih =>
    obtain ⟨hwf, -⟩ := ih
    exact ⟨hwf, rfl⟩

/-- Settles O41: each MVI sets its register and keeps the other, and `pair` loses no bit of either. -/
theorem hlIsBuiltFromItsTwoHalves : Obligations.HlIsBuiltFromItsTwoHalves := by
  intro s d
  refine ⟨pair_toNat _ _, ⟨_, exec_mviH d s, ?_⟩, ⟨_, exec_mviL d s, ?_⟩⟩
  · exact pair_toNat d s.regs.l
  · exact pair_toNat s.regs.h d

/-- Settles O45: the reset state is the reset of itself, so the values after the reset operation cover it. -/
theorem resetGivesTheStatedValues : Obligations.ResetGivesTheStatedValues := by
  have hreset : hostReset State.reset = State.reset := rfl
  have hvalues : ∀ s, (∀ r, (hostReset s).reg r = 0x00#8) ∧ (hostReset s).sp = 0xFFFF#16 ∧
    (hostReset s).pc = 0x0000#16 ∧ (∀ f, (hostReset s).flag f = false) ∧ (hostReset s).mem = s.mem :=
    fun s => ⟨hostReset_reg s, rfl, rfl, fun f => by cases f <;> rfl, rfl⟩
  obtain ⟨hreg, hsp, hpc, hflag, -⟩ := hreset ▸ hvalues State.reset
  exact ⟨hreg, hsp, hpc, hflag, rfl, hvalues⟩

/-- Settles O50: the empty list is canonical (log entry 14). -/
theorem resetStateHasTheInvariant : Obligations.ResetStateHasTheInvariant := Memory.wf_reset

end Sys2Proof
end

section
/-! SUPPORT. The instruction a step runs, as a function of the three bytes from PC up, and its length. -/

namespace Sys2Proof

open Machine

/-- The instruction an opcode's form makes of the two bytes after it; it may leave one or both unread. -/
def OpcodeForm.complete (lo hi : Byte) : OpcodeForm → Instr
  | .f1 i => i
  | .f2 mk => mk lo
  | .f3 mk => mk lo hi

/-- The number of bytes of a form (30_encoding.md R81). -/
def OpcodeForm.length : OpcodeForm → Nat
  | .f1 _ => 1
  | .f2 _ => 2
  | .f3 _ => 3

theorem lengthOf_undefined {op : Byte} (h : op ∉ definedOpcodes) : lengthOf op = 1 := by
  simp only [definedOpcodes, List.mem_cons, List.not_mem_nil, or_false, not_or] at h
  simp [lengthOf, h]

/-- The table of 30_encoding.md R87, the opcode's form and the encoding agree on the length. -/
theorem opcodeForm_length (op lo hi : Byte) :
    (opcodeForm op).length = lengthOf op ∧
      (encode ((opcodeForm op).complete lo hi)).length = lengthOf op := by
  rcases opcode_cases op with rfl | rfl | rfl | rfl | rfl | rfl | rfl | rfl | rfl | rfl | rfl | rfl | h
  case inr.inr.inr.inr.inr.inr.inr.inr.inr.inr.inr.inr =>
    rw [opcodeForm_undefined (by simpa using h), lengthOf_undefined h]
    exact ⟨rfl, rfl⟩
  all_goals exact ⟨rfl, rfl⟩

namespace Machine

/-- The instruction the next step runs. -/
def nextInstr (s : State) : Instr := (opcodeForm (opcodeAt s)).complete (operandLo s) (operandHi s)

/-- The state past the bytes of the next instruction, on which its meaning works (R101). -/
def afterFetch (s : State) : State := s.setPc (s.pc + BitVec.ofNat 16 (lengthOf (opcodeAt s)))

section
variable (s : State)

theorem encode_nextInstr_length : (encode (nextInstr s)).length = lengthOf (opcodeAt s) :=
  (opcodeForm_length _ _ _).2

theorem fetchInstr_eq : fetchInstr s = (nextInstr s, afterFetch s) := by
  have hlen := (opcodeForm_length (opcodeAt s) (operandLo s) (operandHi s)).1
  rw [nextInstr, afterFetch, ← hlen]
  cases h : opcodeForm (opcodeAt s) with
  | f1 i => exact fetchInstr_f1 h
  | f2 mk => exact fetchInstr_f2 h
  | f3 mk => exact fetchInstr_f3 h

theorem step_eq : step s = exec (nextInstr s) (afterFetch s) := step_eq_exec (fetchInstr_eq s)

theorem busTrace_eq :
    busTrace s =
      fetchReads s s.pc (lengthOf (opcodeAt s)) ++ dataTransactions (nextInstr s) (afterFetch s) := by
  rw [busTrace_of_fetchInstr (fetchInstr_eq s), encode_nextInstr_length]

end

/-- PC moves past the instruction's bytes, whatever it does (40_fetch_execute.md R103). -/
theorem pc_of_step {s t : State} {op : Byte} (h : step s = .next t) (hop : opcodeAt s = op) :
    t.pc = s.pc + BitVec.ofNat 16 (lengthOf op) := by
  subst hop
  exact (exec_keeps_pc_flags ((step_eq s).symm.trans h)).1

theorem exists_step_next (s : State) : ∃ t, step s = .next t := by
  obtain ⟨eff, -, hnext⟩ := hasEffect s
  exact ⟨eff s, hnext s (.refl s)⟩

theorem step_of_mviA {s : State} (h : opcodeAt s = 0x3E#8) :
    step s = .next ((s.setPc (s.pc + 2)).setReg .A (operandLo s)) :=
  step_of_f2 h rfl

theorem step_of_mviM {s : State} (h : opcodeAt s = 0x36#8) :
    step s = .next ((s.setPc (s.pc + 2)).writeByte (hl s) (operandLo s)) :=
  step_of_f2 h rfl

theorem step_of_lda {s : State} (h : opcodeAt s = 0x3A#8) :
    step s = .next ((s.setPc (s.pc + 3)).setReg .A (s.readByte (pair (operandHi s) (operandLo s)))) :=
  step_of_f3 h rfl

/-- What a cell holds after MVI M (42_indirect_store.md R120). -/
theorem readByte_of_mviM {s t : State} (h : step s = .next t) (hop : opcodeAt s = 0x36#8) (a : Word) :
    t.readByte a = if a = hl s then operandLo s else s.readByte a := by
  cases (step_of_mviM hop).symm.trans h
  exact State.readByte_writeByte ..

/-- What a cell holds after PUSH B (45_stack_push.md R135). -/
theorem readByte_of_pushB {s t : State} (h : step s = .next t) (hop : opcodeAt s = 0xC5#8) (a : Word) :
    t.readByte a =
      if a = s.sp - 1 then s.regs.b else if a = s.sp - 2 then s.regs.c else s.readByte a := by
  cases (step_of_pushB hop).symm.trans h
  exact pushPair_readByte_pre ..

theorem sp_of_pushB {s t : State} (h : step s = .next t) (hop : opcodeAt s = 0xC5#8) :
    t.sp = s.sp - 2 := by
  cases (step_of_pushB hop).symm.trans h
  exact pushPair_sp ..

/-- LDA reads its cell before anything is written (43_direct_load.md R125). -/
theorem a_of_lda {s t : State} (h : step s = .next t) (hop : opcodeAt s = 0x3A#8) :
    t.regs.a = s.readByte (pair (operandHi s) (operandLo s)) := by
  cases (step_of_lda hop).symm.trans h
  rfl

theorem a_of_mviA {s t : State} (h : step s = .next t) (hop : opcodeAt s = 0x3E#8) :
    t.regs.a = operandLo s := by
  cases (step_of_mviA hop).symm.trans h
  rfl

/-- The kinds of effect that touch memory belong to MVI M and PUSH B (20_memory.md R50). -/
theorem Effect.mem_of_ne {op : Byte} {eff : State → State} (h : Effect op eff) (s : State)
    (hstore : op ≠ 0x36#8) (hpush : op ≠ 0xC5#8) : (eff s).mem = s.mem := by
  cases h with
  | store w d hop => exact absurd hop hstore
  | push w hop => exact absurd hop hpush
  | loadReg | loadSp | loadPair | nothing => simp

end Machine

end Sys2Proof
end

section
/-! SUPPORT. The transactions of a step: their number, and what they make of memory. -/

namespace Sys2Proof.Machine

/-- Fetches are reads. -/
theorem filter_isWrite_fetchReads (s : State) (a : Word) (n : Nat) :
    (fetchReads s a n).filter Transaction.isWrite = [] := by
  induction n generalizing a with
  | zero => rfl
  | succ n ih => exact ih _

theorem dataTransactions_length_le (i : Instr) (s : State) : (dataTransactions i s).length ≤ 2 := by
  cases i <;> simp [dataTransactions]

/-- The longest lists are those of LDA: three fetches and a read. -/
theorem encode_dataTransactions_length_le (i : Instr) (s : State) :
    (encode i).length + (dataTransactions i s).length ≤ 4 := by
  cases i <;> simp [encode, dataTransactions]

/-- What a meaning makes of memory is what its data accesses make of it (20_memory.md R61): MVI M and PUSH B
list the very writes they make, and the others write nothing. -/
theorem replay_dataTransactions {i : Instr} {s t : State} (h : exec i s = .next t) :
    t.mem = replay s.mem (dataTransactions i s) := by
  cases i <;> cases h <;> rfl

/-- The one data read, that of LDA, comes before any write of its step (20_memory.md R60). -/
theorem readsConsistent_dataTransactions (i : Instr) (s : State) :
    readsConsistent s.mem (dataTransactions i s) = true := by
  cases i with
  | lda addr => simp [dataTransactions, readsConsistent, State.readByte]
  | _ => rfl

end Sys2Proof.Machine
end

section
/-! SUPPORT. What the loaded image leaves in a cell. -/

namespace Sys2Proof.Machine

/-- A cell holds the byte the image wrote there last, or what it held before (70_reset_and_hazards.md R184). -/
theorem loadImage_readByte (image : List (Word × Byte)) (s : State) (a : Word) :
    (loadImage s image).readByte a =
      (image.reverse.find? fun c => c.1 == a).elim (s.readByte a) Prod.snd := by
  induction image generalizing s with
  | nil => rfl
  | cons c image ih =>
    rw [loadImage, ih, List.reverse_cons, List.find?_append]
    cases image.reverse.find? fun c => c.1 == a with
    | some d => rfl
    | none =>
      by_cases h : c.1 = a
      · simp [h]
      · simp [h, Ne.symm h]

end Sys2Proof.Machine
end

section
/-! Claims of the family 20_memory.md, each from the laws above. -/

namespace Sys2Proof

open Machine

/-- Settles O31: no other kind of effect touches memory, and these two write one and two cells. -/
theorem memoryIsWrittenOnlyByMviMAndPushB : Obligations.MemoryIsWrittenOnlyByMviMAndPushB := by
  intro s t hstep
  refine ⟨fun hstore hpush => ?_, fun hop a hne => ?_, fun hop a hhigh hlow => ?_⟩
  · obtain ⟨eff, heff, rfl⟩ := exists_effect_of_step hstep
    exact heff.mem_of_ne s hstore hpush
  · rw [readByte_of_mviM hstep hop, if_neg hne]
  · rw [readByte_of_pushB hstep hop, if_neg hhigh, if_neg hlow]

/-- Settles O32: fetches change nothing and read what is there, so the data accesses decide. -/
theorem memoryAfterAStepIsItsTransactionsReplayed :
    Obligations.MemoryAfterAStepIsItsTransactionsReplayed := by
  intro s t hstep
  rw [busTrace_eq, replay_fetchReads, readsConsistent_fetchReads]
  exact ⟨replay_dataTransactions (s := afterFetch s) ((step_eq s).symm.trans hstep),
    readsConsistent_dataTransactions _ (afterFetch s)⟩

/-- Settles O33, with the data accesses of the instruction the step runs. -/
theorem fetchesComeBeforeDataAccesses : Obligations.FetchesComeBeforeDataAccesses := by
  intro s
  refine ⟨_, busTrace_eq s, ?_, ?_⟩
  · rw [busTrace_eq, List.length_append, fetchReads_length, ← encode_nextInstr_length]
    exact encode_dataTransactions_length_le _ _
  · rw [busTrace_eq, List.filter_append, filter_isWrite_fetchReads, List.nil_append]
    exact (List.length_filter_le _ _).trans (dataTransactions_length_le _ _)

/-- Settles O35: the cell PC comes to stand on is the one just written. -/
theorem storedByteIsTheNextOpcode : Obligations.StoredByteIsTheNextOpcode := by
  intro s
  obtain ⟨t, hstep⟩ := exists_step_next s
  refine ⟨fun hop hahead => ?_, fun hop hahead => ⟨t, hstep, ?_⟩, fun hop hahead => ⟨t, hstep, ?_⟩⟩
  · obtain ⟨u, hnext⟩ := exists_step_next t
    have hpc : t.pc = s.pc + 2 := pc_of_step hstep hop
    have hopcode : opcodeAt t = operandLo s := by
      rw [opcodeAt, readByte_of_mviM hstep hop, if_pos (hpc.trans hahead.symm)]
    refine ⟨t, u, hstep, hnext, hopcode, hpc ▸ pc_of_step hnext hopcode, fun hmvi => ?_⟩
    have hne : s.pc + 3 ≠ hl s := by bv_omega
    rw [a_of_mviA hnext (hopcode.trans hmvi), operandLo, hpc, BitVec.add_assoc, readByte_of_mviM hstep hop]
    exact if_neg hne
  · have hpc : t.pc = s.pc + 1 := pc_of_step hstep hop
    rw [opcodeAt, readByte_of_pushB hstep hop, if_pos (hpc.trans hahead.symm)]
  · have hpc : t.pc = s.pc + 1 := pc_of_step hstep hop
    have hne : t.pc ≠ s.sp - 1 := by bv_omega
    rw [opcodeAt, readByte_of_pushB hstep hop, if_neg hne, if_pos (hpc.trans hahead.symm)]

/-- Settles O36: the LDA stands unharmed behind the MVI M and reads the memory the store left. -/
theorem loadAfterStoreReturnsTheLatestWrite : Obligations.LoadAfterStoreReturnsTheLatestWrite := by
  intro s hstore hload hne2 hne3 hne4
  obtain ⟨t, hstep⟩ := exists_step_next s
  obtain ⟨u, hnext⟩ := exists_step_next t
  have hpc : t.pc = s.pc + 2 := pc_of_step hstep hstore
  have hread := readByte_of_mviM hstep hstore
  have hopcode : opcodeAt t = 0x3A#8 := by rw [opcodeAt, hpc, hread, if_neg hne2.symm, hload]
  have hlo : operandLo t = s.readByte (s.pc + 3) := by
    rw [operandLo, hpc, BitVec.add_assoc, hread]
    exact if_neg hne3.symm
  have hhi : operandHi t = s.readByte (s.pc + 4) := by
    rw [operandHi, hpc, BitVec.add_assoc, hread]
    exact if_neg hne4.symm
  refine ⟨t, u, hstep, hnext, ?_, fun addr haddr => ?_⟩
  · rw [pc_of_step hnext hopcode, hpc, BitVec.add_assoc]
    rfl
  · rw [a_of_lda hnext hopcode, hlo, hhi, ← haddr, hread]

/-- Settles O37: the new SP is two below the old one, where C was written. -/
theorem pushedPairIsLittleEndian : Obligations.PushedPairIsLittleEndian := by
  intro s hop
  obtain ⟨t, hstep⟩ := exists_step_next s
  have hsp : t.sp = s.sp - 2 := sp_of_pushB hstep hop
  have habove : s.sp - 2 + 1 = s.sp - 1 := by bv_omega
  have hlow : s.sp - 2 ≠ s.sp - 1 := by bv_omega
  have hold1 : s.sp ≠ s.sp - 1 := by bv_omega
  have hold2 : s.sp ≠ s.sp - 2 := by bv_omega
  refine ⟨t, hstep, ?_, ?_, ?_⟩
  · rw [hsp, readByte_of_pushB hstep hop, if_neg hlow, if_pos rfl]
  · rw [hsp, habove, readByte_of_pushB hstep hop, if_pos rfl]
  · rw [readByte_of_pushB hstep hop, if_neg hold1, if_neg hold2]

/-- Settles O43: the memory after the write is canonical too and reads the same in every cell. -/
theorem rewritingAHeldByteChangesNothing : Obligations.RewritingAHeldByteChangesNothing := by
  intro s a hwf
  have hmem : s.mem.write a (s.readByte a) = s.mem :=
    Memory.eq_of_read_eq (Memory.wf_write _ _ _ hwf) hwf fun b => by
      rw [Memory.read_write]
      split
      next hb => rw [hb]; rfl
      next => rfl
  rw [State.writeByte, hmem]

/-- Settles O48: the loader leaves everything but memory, and under the image memory reads 0. -/
theorem launchMemoryIsTheImageOverZero : Obligations.LaunchMemoryIsTheImageOverZero := by
  intro image
  obtain ⟨hregs, hsp, hpc, hflags⟩ := loadImage_fields image State.reset
  refine ⟨⟨(launch image).mem, State.ext_fields hregs hsp hpc hflags rfl⟩, fun a => ?_⟩
  rw [launch, loadImage_readByte]
  cases image.reverse.find? fun c => c.1 == a <;> rfl

/-- Settles O42, by what a read after a write returns. -/
theorem writeSetsOneCell : Obligations.WriteSetsOneCell := by
  intro s a v
  refine ⟨?_, fun b hne => ?_, ⟨_, rfl⟩⟩
  · simp
  · simp [hne]

end Sys2Proof
end

section
/-! SUPPORT. What the decoder reads from a list of bytes, and what the encoder makes of that. -/

namespace Sys2Proof

open Machine

/-- The encoding of what an opcode's form makes of two bytes: the opcode and those of the bytes it has read
(30_encoding.md R81, R83). -/
theorem encode_complete (op lo hi : Byte) :
    encode ((opcodeForm op).complete lo hi) = [op, lo, hi].take (opcodeForm op).length := by
  rcases opcode_cases op with rfl | rfl | rfl | rfl | rfl | rfl | rfl | rfl | rfl | rfl | rfl | rfl | h
  case inr.inr.inr.inr.inr.inr.inr.inr.inr.inr.inr.inr =>
    rw [opcodeForm_undefined (by simpa using h)]
    rfl
  all_goals simp [opcodeForm, OpcodeForm.complete, OpcodeForm.length, encode]

/-- The opcode map makes `undef` of the bytes outside the twelve only (30_encoding.md R85). -/
theorem wellFormed_complete (op lo hi : Byte) : WellFormed ((opcodeForm op).complete lo hi) := by
  rcases opcode_cases op with rfl | rfl | rfl | rfl | rfl | rfl | rfl | rfl | rfl | rfl | rfl | rfl | h
  case inr.inr.inr.inr.inr.inr.inr.inr.inr.inr.inr.inr =>
    rw [opcodeForm_undefined (by simpa using h)]
    simpa [OpcodeForm.complete, WellFormed, Instr.wellFormed] using h
  all_goals rfl

/-- No opcode wants more than two bytes after it (30_encoding.md R87). -/
theorem decode_of_three (op lo hi : Byte) (bs : List Byte) :
    decode (op :: lo :: hi :: bs) =
      .ok ((opcodeForm op).complete lo hi, (op :: lo :: hi :: bs).drop (opcodeForm op).length) := by
  cases h : opcodeForm op <;> simp [decode, h, OpcodeForm.complete, OpcodeForm.length]

/-- Everything a successful decode can do: the opcode's form reads the bytes it is long and leaves the
others. -/
theorem decode_cons_cases {op : Byte} {bs : List Byte} {i : Instr} {rest : List Byte}
    (h : decode (op :: bs) = .ok (i, rest)) :
    ∃ lo hi, i = (opcodeForm op).complete lo hi ∧
      op :: bs = [op, lo, hi].take (opcodeForm op).length ++ rest := by
  unfold decode at h
  dsimp only at h
  split at h <;> cases h
  case h_1 hf => exact ⟨0, 0, by rw [hf]; exact ⟨rfl, rfl⟩⟩
  case h_2 lo hf => exact ⟨lo, 0, by rw [hf]; exact ⟨rfl, rfl⟩⟩
  case h_4 lo hi hf => exact ⟨lo, hi, by rw [hf]; exact ⟨rfl, rfl⟩⟩

end Sys2Proof
end

section
/-! SUPPORT. What stands at PC once a table word is placed there (log entry 6). -/

namespace Sys2Proof.Machine

/-- Each of the three bytes stands in its cell: no two of the three addresses are one, wrapped or not. -/
theorem storeBytes_readByte (s : State) (a : Word) (b0 b1 b2 : Byte) :
    (storeBytes s a [b0, b1, b2]).readByte a = b0 ∧
      (storeBytes s a [b0, b1, b2]).readByte (a + 1) = b1 ∧
      (storeBytes s a [b0, b1, b2]).readByte (a + 2) = b2 := by
  have h01 : a ≠ a + 1 := by bv_omega
  have h02 : a ≠ a + 1 + 1 := by bv_omega
  have h12 : a + 1 ≠ a + 1 + 1 := by bv_omega
  have h22 : a + 2 = a + 1 + 1 := by bv_omega
  simp only [storeBytes, State.readByte_writeByte, h22, if_neg h01, if_neg h02, if_neg h12, if_true,
    and_self]

@[simp] theorem State.withFetchWord_pc (s : State) (nbits w : Nat) :
    (s.withFetchWord nbits w).pc = s.pc := rfl

/-- The three bytes from PC up are those of the word. -/
theorem tableBytes_eq_of_withFetchWord (s : State) (nbits w : Nat) :
    tableBytes nbits w =
      [opcodeAt (s.withFetchWord nbits w), operandLo (s.withFetchWord nbits w),
        operandHi (s.withFetchWord nbits w)] := by
  obtain ⟨hop, hlo, hhi⟩ := storeBytes_readByte s s.pc (tableByte (w % 2 ^ nbits) 0)
    (tableByte (w % 2 ^ nbits) 1) (tableByte (w % 2 ^ nbits) 2)
  rw [opcodeAt, operandLo, operandHi, State.withFetchWord_pc, State.withFetchWord, tableBytes, hop, hlo, hhi]

/-- The decoder reads from a word what the machine fetches where the word is placed. -/
theorem decodeTableWord_eq (s : State) (nbits w : Nat) :
    decodeTableWord nbits w = some (nextInstr (s.withFetchWord nbits w)) := by
  rw [decodeTableWord, tableBytes_eq_of_withFetchWord s, decode_of_three, nextInstr]

end Sys2Proof.Machine
end

section
/-! Claims of the family 30_encoding.md, each from the laws above. -/

namespace Sys2Proof

open Machine

/-- Settles O17, by the round trip of each constructor. -/
theorem decodeOfEncodeIsTheInstruction : Obligations.DecodeOfEncodeIsTheInstruction := by
  intro i rest hwf
  cases i with
  | mviA d => exact Laws.RoundTrip.mviA d hwf rest
  | mviB d => exact Laws.RoundTrip.mviB d hwf rest
  | mviC d => exact Laws.RoundTrip.mviC d hwf rest
  | mviD d => exact Laws.RoundTrip.mviD d hwf rest
  | mviE d => exact Laws.RoundTrip.mviE d hwf rest
  | mviH d => exact Laws.RoundTrip.mviH d hwf rest
  | mviL d => exact Laws.RoundTrip.mviL d hwf rest
  | mviM d => exact Laws.RoundTrip.mviM d hwf rest
  | lda a => exact Laws.RoundTrip.lda a hwf rest
  | lxiSp v => exact Laws.RoundTrip.lxiSp v hwf rest
  | lxiB c b => exact Laws.RoundTrip.lxiB c b hwf rest
  | pushB => exact Laws.RoundTrip.pushB hwf rest
  | undef op => exact Laws.RoundTrip.undef op hwf rest

/-- Settles O18: the decoder reads what the opcode's form completes, and the encoder writes that back. -/
theorem encodeOfDecodeIsTheBytes : Obligations.EncodeOfDecodeIsTheBytes := by
  intro bs i rest h
  cases bs with
  | nil => cases h
  | cons op bs =>
    obtain ⟨lo, hi, rfl, hbs⟩ := decode_cons_cases h
    exact ⟨by rw [encode_complete, hbs], wellFormed_complete op lo hi⟩

/-- Settles O21: the bytes consumed are as many as the form of their opcode is long. -/
theorem lengthIsFixedByTheOpcode : Obligations.LengthIsFixedByTheOpcode := by
  intro op bs i rest h
  obtain ⟨lo, hi, -, hbs⟩ := decode_cons_cases h
  rw [hbs, ← encode_complete, List.length_append, (opcodeForm_length op lo hi).2]

/-- Settles O22: the word's three bytes stand at PC, where the decoder and the fetch read the same. -/
theorem placedTableWordRunsNext : Obligations.PlacedTableWordRunsNext := by
  intro s nbits w
  refine ⟨nextInstr (s.withFetchWord nbits w), decodeTableWord_eq s nbits w, ?_⟩
  rw [step_eq, afterFetch, encode_nextInstr_length, State.withFetchWord_pc]
  rfl

/-- Settles O19: the decoder evaluates on each word. -/
theorem specWordsDecodeToTheirInstructions : Obligations.SpecWordsDecodeToTheirInstructions :=
  ⟨rfl, rfl, rfl, rfl, rfl, rfl, rfl⟩

end Sys2Proof
end

section
/-! SUPPORT. The three cells from PC up decide which instruction the next step runs. -/

namespace Sys2Proof

open Machine

/-- No form is longer than the three bytes the fetch can take (30_encoding.md R80). -/
theorem OpcodeForm.length_le (form : OpcodeForm) : form.length ≤ 3 := by
  cases form <;> simp [OpcodeForm.length]

theorem encode_length_le (i : Instr) : (encode i).length ≤ 3 := by
  cases i <;> simp [encode]

namespace Machine

/-- The bytes a fetch of one instruction can take (40_fetch_execute.md R101). -/
def codeBytes (s : State) : List Byte := [opcodeAt s, operandLo s, operandHi s]

section
variable {s : State} {i : Instr}

theorem codeBytes_getElem? {k : Nat} (hk : k < 3) :
    (codeBytes s)[k]? = some (s.readByte (s.pc + BitVec.ofNat 16 k)) := by
  match k with
  | 0 => simp [codeBytes, opcodeAt]
  | 1 => rfl
  | 2 => rfl

/-- The encoding of `i` stands at PC, said cell by cell with the wrap of R25. -/
theorem encode_prefix_codeBytes_iff :
    encode i <+: codeBytes s ↔
      ∀ k b, (encode i)[k]? = some b → s.readByte (s.pc + BitVec.ofNat 16 k) = b := by
  have hlen := encode_length_le i
  rw [List.prefix_iff_getElem?]
  constructor
  · intro h k b hb
    obtain ⟨hk, rfl⟩ := List.getElem?_eq_some_iff.1 hb
    exact Option.some.inj ((codeBytes_getElem? (hk.trans_le hlen)).symm.trans (h k hk))
  · intro h k hk
    rw [codeBytes_getElem? (hk.trans_le hlen), h k _ (List.getElem?_eq_getElem hk)]

theorem decode_codeBytes :
    decode (codeBytes s) = .ok (nextInstr s, (codeBytes s).drop (opcodeForm (opcodeAt s)).length) :=
  decode_of_three ..

theorem encode_nextInstr_prefix : encode (nextInstr s) <+: codeBytes s := by
  rw [nextInstr, encode_complete]
  exact List.take_prefix ..

/-- By the round trip, the well-formed instruction whose bytes stand at PC is the one the decoder reads
there. -/
theorem nextInstr_of_encode_prefix (hwf : WellFormed i) (h : encode i <+: codeBytes s) :
    nextInstr s = i := by
  obtain ⟨rest, hrest⟩ := h
  have hdec := decode_codeBytes (s := s)
  rw [← hrest, decodeOfEncodeIsTheInstruction i rest hwf] at hdec
  exact (congrArg Prod.fst (Except.ok.inj hdec)).symm

/-- The step, with PC past the encoding of the instruction it runs (40_fetch_execute.md R101). -/
theorem step_of_encode_prefix (hwf : WellFormed i) (h : encode i <+: codeBytes s) :
    step s = exec i { s with pc := s.pc + BitVec.ofNat 16 (encode i).length } := by
  obtain rfl := nextInstr_of_encode_prefix hwf h
  rw [step_eq, afterFetch, encode_nextInstr_length]
  rfl

end

end Machine

end Sys2Proof
end

section
/-! SUPPORT. What a step makes of another memory that agrees on the cells it reads. -/

namespace Sys2Proof.Machine

/-- `s` over the memory `m`. -/
def State.setMem (s : State) (m : Memory) : State := { s with mem := m }

section
variable (s : State) (m : Memory)

@[simp] theorem State.setMem_pc : (s.setMem m).pc = s.pc := rfl
@[simp] theorem State.readByte_setMem (a : Word) : (s.setMem m).readByte a = m.read a := rfl
theorem State.setPc_setMem (w : Word) : (s.setMem m).setPc w = (s.setPc w).setMem m := rfl

end

/-- `m` holds in each cell the transactions read the byte they read there. -/
def ReadsAgree (m : Memory) (ts : List Transaction) : Prop :=
  ∀ a v, .read a v ∈ ts → m.read a = v

section
variable {m : Memory}

theorem readsAgree_append {ts us : List Transaction} :
    ReadsAgree m (ts ++ us) ↔ ReadsAgree m ts ∧ ReadsAgree m us := by
  simp [ReadsAgree, or_imp, forall_and]

theorem readsAgree_read_cons {a : Word} {v : Byte} {ts : List Transaction} :
    ReadsAgree m (.read a v :: ts) ↔ m.read a = v ∧ ReadsAgree m ts := by
  simp [ReadsAgree, or_imp, forall_and]

variable {s : State}

/-- The fetches read the cells they walk over, one after the other. -/
theorem ReadsAgree.fetchReads_cell {a : Word} {k n : Nat} (hk : k < n)
    (h : ReadsAgree m (fetchReads s a n)) :
    m.read (a + BitVec.ofNat 16 k) = s.readByte (a + BitVec.ofNat 16 k) := by
  induction n generalizing a k with
  | zero => cases hk
  | succ n ih =>
    obtain ⟨hhead, htail⟩ := readsAgree_read_cons.1 h
    cases k with
    | zero => simpa using hhead
    | succ k =>
      have haddr : a + BitVec.ofNat 16 (k + 1) = a + 1 + BitVec.ofNat 16 k := by
        rw [Nat.add_comm, BitVec.ofNat_add, ← BitVec.add_assoc]; rfl
      rw [haddr]
      exact ih (Nat.lt_of_succ_lt_succ hk) htail

theorem ReadsAgree.fetchReads_setMem {a : Word} {n : Nat} (h : ReadsAgree m (fetchReads s a n)) :
    fetchReads (s.setMem m) a n = fetchReads s a n := by
  induction n generalizing a with
  | zero => rfl
  | succ n ih =>
    obtain ⟨hhead, htail⟩ := readsAgree_read_cons.1 h
    rw [fetchReads, fetchReads, State.readByte_setMem, hhead, ih htail]

/-- Over a memory that agrees on the cells fetched, the same bytes stand at PC and give the same
instruction. -/
theorem ReadsAgree.nextInstr_setMem
    (h : ReadsAgree m (fetchReads s s.pc (lengthOf (opcodeAt s)))) :
    nextInstr (s.setMem m) = nextInstr s := by
  refine nextInstr_of_encode_prefix (wellFormed_complete ..) (encode_prefix_codeBytes_iff.2 ?_)
  intro k b hb
  have hk : k < lengthOf (opcodeAt s) := by
    rw [← encode_nextInstr_length]
    exact (List.getElem?_eq_some_iff.1 hb).1
  exact (h.fetchReads_cell hk).trans (encode_prefix_codeBytes_iff.1 encode_nextInstr_prefix k b hb)

/-- The instruction decides its length, and with it how far PC moves. -/
theorem lengthOf_setMem (h : nextInstr (s.setMem m) = nextInstr s) :
    lengthOf (opcodeAt (s.setMem m)) = lengthOf (opcodeAt s) := by
  rw [← encode_nextInstr_length, h, encode_nextInstr_length]

theorem afterFetch_setMem (h : nextInstr (s.setMem m) = nextInstr s) :
    afterFetch (s.setMem m) = (afterFetch s).setMem m := by
  rw [afterFetch, afterFetch, lengthOf_setMem h, State.setMem_pc, State.setPc_setMem]

section
variable {i : Instr} (h : ReadsAgree m (dataTransactions i s))
include h

/-- Only LDA reads a data cell; no other list of data accesses depends on memory (20_memory.md R61). -/
theorem ReadsAgree.dataTransactions_setMem :
    dataTransactions i (s.setMem m) = dataTransactions i s := by
  cases i with
  | lda addr =>
    have hread : m.read addr = s.readByte addr := (readsAgree_read_cons.1 h).1
    rw [dataTransactions, dataTransactions, State.readByte_setMem, hread]
  | _ => rfl

/-- A meaning does the same over such a memory, and makes the same writes to it. -/
theorem ReadsAgree.exec_setMem {t : State} (ht : exec i s = .next t) :
    exec i (s.setMem m) = .next (t.setMem (replay m (dataTransactions i s))) := by
  cases i with
  | lda addr =>
    have hread : m.read addr = s.readByte addr := (readsAgree_read_cons.1 h).1
    cases ht
    rw [exec_lda, State.readByte_setMem, hread]
    rfl
  | _ => cases ht; rfl

end

section
variable (h : ReadsAgree m (busTrace s))
include h

theorem ReadsAgree.busTrace_setMem : busTrace (s.setMem m) = busTrace s := by
  rw [busTrace_eq] at h ⊢
  obtain ⟨hfetch, hdata⟩ := readsAgree_append.1 h
  have hnext := hfetch.nextInstr_setMem
  rw [hnext, lengthOf_setMem hnext, afterFetch_setMem hnext, State.setMem_pc, hfetch.fetchReads_setMem,
    hdata.dataTransactions_setMem, busTrace_eq]

theorem ReadsAgree.step_setMem {t : State} (ht : step s = .next t) :
    step (s.setMem m) = .next (t.setMem (replay m (busTrace s))) := by
  rw [busTrace_eq] at h ⊢
  obtain ⟨hfetch, hdata⟩ := readsAgree_append.1 h
  have hnext := hfetch.nextInstr_setMem
  rw [step_eq] at ht ⊢
  rw [hnext, afterFetch_setMem hnext, replay_fetchReads]
  exact hdata.exec_setMem ht

end

end

end Sys2Proof.Machine
end

section
/-! Claims of the family 40_fetch_execute.md, each from the laws above. -/

namespace Sys2Proof

open Machine

/-- Settles O16: what the decoder leaves of the three bytes is what the opcode's form does not take. -/
theorem stepRunsWhatTheDecoderReads : Obligations.StepRunsWhatTheDecoderReads := by
  intro s
  refine ⟨nextInstr s, _, decode_codeBytes, wellFormed_complete .., ?_⟩
  have hlen : 3 - ((codeBytes s).drop (opcodeForm (opcodeAt s)).length).length =
      lengthOf (opcodeAt s) := by
    rw [← (opcodeForm_length (opcodeAt s) 0 0).1, List.length_drop]
    exact Nat.sub_sub_self (OpcodeForm.length_le _)
  rw [hlen, step_eq]
  rfl

/-- Settles O24: every step completes, and a meaning leaves PC past the bytes fetched. -/
theorem pcAdvancesByTheLength : Obligations.PcAdvancesByTheLength := by
  intro s
  obtain ⟨t, ht⟩ := exists_step_next s
  exact ⟨t, ht, pc_of_step ht rfl⟩

/-- Settles O34: the cells fetched decide the instruction, and its meaning reads no cell outside its data
transactions. -/
theorem stepDependsOnlyOnTheCellsItReads : Obligations.StepDependsOnlyOnTheCellsItReads := by
  intro s m h
  have hagree : ReadsAgree m (busTrace s) := h
  obtain ⟨t, ht⟩ := exists_step_next s
  exact ⟨t, _, ht, hagree.step_setMem ht, rfl, rfl, rfl, rfl, hagree.busTrace_setMem, rfl⟩

/-- Settles O15: the round trip makes the encoded instruction the one the step runs. -/
theorem stepRunsTheDecodedInstruction : Obligations.StepRunsTheDecodedInstruction := by
  intro i s hwf hbytes
  exact step_of_encode_prefix hwf (encode_prefix_codeBytes_iff.2 hbytes)

/-- Settles O23: PC is a 16-bit word, so its successor at the top is 0. -/
theorem fetchReadsThenAdvancesPc : Obligations.FetchReadsThenAdvancesPc := by
  intro s
  refine ⟨rfl, fun htop => ?_⟩
  rw [fetch, State.setPc_pc, htop]
  rfl

end Sys2Proof
end

section
/-! SUPPORT. The step of MVI r, said once for the seven registers. -/

namespace Sys2Proof.Machine

/-- The opcode of MVI `r` (30_encoding.md R84). -/
def mviOpcode : Reg → Byte
  | .A => 0x3E#8
  | .B => 0x06#8
  | .C => 0x0E#8
  | .D => 0x16#8
  | .E => 0x1E#8
  | .H => 0x26#8
  | .L => 0x2E#8

/-- MVI `r` (41_immediate_load.md R110). -/
def mviInstr : Reg → Byte → Instr
  | .A => .mviA
  | .B => .mviB
  | .C => .mviC
  | .D => .mviD
  | .E => .mviE
  | .H => .mviH
  | .L => .mviL

section
variable (r : Reg) (d : Byte) (s : State)

theorem opcodeForm_mviOpcode : opcodeForm (mviOpcode r) = .f2 (mviInstr r) := by cases r <;> rfl

theorem exec_mviInstr : exec (mviInstr r d) s = .next (s.setReg r d) := by cases r <;> rfl

theorem dataTransactions_mviInstr : dataTransactions (mviInstr r d) s = [] := by cases r <;> rfl

end

/-- An instruction of two bytes reads both of them, then makes its data accesses (20_memory.md R61). -/
theorem busTrace_of_f2 {s : State} {op : Byte} {mk : Byte → Instr} (h : opcodeAt s = op)
    (hf : opcodeForm op = .f2 mk) :
    busTrace s = .read s.pc op :: .read (s.pc + 1) (operandLo s) ::
      dataTransactions (mk (operandLo s)) (s.setPc (s.pc + 2)) := by
  subst h
  have hlen : lengthOf (opcodeAt s) = 2 := by
    rw [← (opcodeForm_length (opcodeAt s) 0 0).1, hf]
    rfl
  rw [busTrace_eq, nextInstr, afterFetch, hlen, hf]
  rfl

/-- The step of MVI `r`: the byte after the opcode goes to `r`, and the two fetches are all the memory
sees of it (41_immediate_load.md R110). -/
theorem step_busTrace_of_mvi {s : State} (r : Reg) (h : opcodeAt s = mviOpcode r) :
    step s = .next ((s.setPc (s.pc + 2)).setReg r (operandLo s)) ∧
      busTrace s = [.read s.pc (mviOpcode r), .read (s.pc + 1) (operandLo s)] := by
  constructor
  · rw [step_of_f2 h (opcodeForm_mviOpcode r), exec_mviInstr]
  · rw [busTrace_of_f2 h (opcodeForm_mviOpcode r), dataTransactions_mviInstr]

end Sys2Proof.Machine
end

section
/-! Claims of the family 41_immediate_load.md, each from the laws above. -/

namespace Sys2Proof

open Machine

/-- Settles O8: each clause is the step of MVI `r` at one register. -/
theorem stepOfMviRegister : Obligations.StepOfMviRegister := fun _ =>
  ⟨step_busTrace_of_mvi .A, step_busTrace_of_mvi .B, step_busTrace_of_mvi .C, step_busTrace_of_mvi .D,
    step_busTrace_of_mvi .E, step_busTrace_of_mvi .H, step_busTrace_of_mvi .L⟩

/-- Settles O1: each clause is the meaning of MVI `r` at one register. -/
theorem mviLoadsTheNamedRegister : Obligations.MviLoadsTheNamedRegister := fun d s =>
  ⟨exec_mviInstr .A d s, exec_mviInstr .B d s, exec_mviInstr .C d s, exec_mviInstr .D d s,
    exec_mviInstr .E d s, exec_mviInstr .H d s, exec_mviInstr .L d s⟩

end Sys2Proof
end

section
/-! Claims of the family 42_indirect_store.md, each from the laws above. -/

namespace Sys2Proof

open Machine

/-- Settles O9: the fetches move PC alone, so the write goes to the HL of the state before the step, and it
stands in the transactions behind the two fetches. -/
theorem stepOfMviM : Obligations.StepOfMviM := by
  intro s hop
  have hstep := step_of_mviM hop
  exact ⟨_, hstep, rfl, rfl, rfl, rfl, pair_toNat s.regs.h s.regs.l, readByte_of_mviM hstep hop,
    busTrace_of_f2 hop rfl⟩

/-- Settles O2: the meaning is one write to the cell at HL. -/
theorem mviMStoresAtHl : Obligations.MviMStoresAtHl := fun d s =>
  ⟨_, exec_mviM d s, rfl, rfl, rfl, rfl, fun a => State.readByte_writeByte s (hl s) a d⟩

end Sys2Proof
end

section
/-! SUPPORT. The transactions of a three-byte instruction, and its operand bytes as one word. -/

namespace Sys2Proof.Machine

/-- An instruction of three bytes reads all of them, the low operand byte first, then makes its data
accesses (20_memory.md R61). -/
theorem busTrace_of_f3 {s : State} {op : Byte} {mk : Byte → Byte → Instr} (h : opcodeAt s = op)
    (hf : opcodeForm op = .f3 mk) :
    busTrace s = .read s.pc op :: .read (s.pc + 1) (operandLo s) :: .read (s.pc + 2) (operandHi s) ::
      dataTransactions (mk (operandLo s) (operandHi s)) (s.setPc (s.pc + 3)) := by
  subst h
  have hlen : lengthOf (opcodeAt s) = 3 := by
    rw [← (opcodeForm_length (opcodeAt s) 0 0).1, hf]
    rfl
  have hpc : s.pc + 1 + 1 = s.pc + 2 := BitVec.add_assoc ..
  rw [busTrace_eq, nextInstr, afterFetch, hlen, hf]
  simp only [fetchReads, hpc]
  rfl

/-- The word whose number is built from two bytes is their `pair` (30_encoding.md R83). -/
theorem eq_pair_of_toNat {w : Word} {h l : Byte} (hw : w.toNat = h.toNat * 256 + l.toNat) :
    w = pair h l :=
  BitVec.eq_of_toNat_eq (hw.trans (pair_toNat h l).symm)

end Sys2Proof.Machine
end

section
/-! Claims of the family 43_direct_load.md, each from the laws above. -/

namespace Sys2Proof

open Machine

/-- Settles O10: the address is the `pair` of the operand bytes, and the fetches move PC alone, so the data
read, last of the transactions, returns what that cell held before the step. -/
theorem stepOfLda : Obligations.StepOfLda := by
  intro s hop addr haddr
  obtain rfl := eq_pair_of_toNat haddr
  exact ⟨step_of_lda hop, busTrace_of_f3 hop rfl⟩

/-- Settles O3: the meaning is one write to A. -/
theorem ldaLoadsTheAddressedByte : Obligations.LdaLoadsTheAddressedByte := exec_lda

end Sys2Proof
end

section
/-! SUPPORT. The step of LXI SP. -/

namespace Sys2Proof.Machine

/-- The step of LXI SP: the `pair` of the operand bytes goes to SP (44_register_pair_load.md R130). -/
theorem step_of_lxiSp {s : State} (h : opcodeAt s = 0x31#8) :
    step s = .next ((s.setPc (s.pc + 3)).setSp (pair (operandHi s) (operandLo s))) :=
  step_of_f3 h rfl

end Sys2Proof.Machine
end

section
/-! Claims of the family 44_register_pair_load.md, each from the laws above. -/

namespace Sys2Proof

open Machine

/-- Settles O11: the immediate is the `pair` of the operand bytes, and the fetches are all the memory sees
of the step. -/
theorem stepOfLxiSp : Obligations.StepOfLxiSp := by
  intro s hop imm himm
  obtain rfl := eq_pair_of_toNat himm
  exact ⟨step_of_lxiSp hop, busTrace_of_f3 hop rfl⟩

/-- Settles O12: each operand byte goes to its own register, and the fetches are all the memory sees of the
step. -/
theorem stepOfLxiB : Obligations.StepOfLxiB := fun _ hop =>
  ⟨step_of_lxiB hop, busTrace_of_f3 hop rfl⟩

/-- Settles O4: the meaning is one write to SP. -/
theorem lxiSpLoadsTheStackPointer : Obligations.LxiSpLoadsTheStackPointer := exec_lxiSp

/-- Settles O5: the meaning is a write to C and a write to B, each leaving the other registers alone. -/
theorem lxiBLoadsCThenB : Obligations.LxiBLoadsCThenB := exec_lxiB

end Sys2Proof
end

section
/-! SUPPORT. The transactions of a one-byte instruction and of the push, and the registers a push keeps. -/

namespace Sys2Proof.Machine

/-- An instruction of one byte reads it, then makes its data accesses (20_memory.md R61). -/
theorem busTrace_of_f1 {s : State} {op : Byte} {i : Instr} (h : opcodeAt s = op)
    (hf : opcodeForm op = .f1 i) :
    busTrace s = .read s.pc op :: dataTransactions i (s.setPc (s.pc + 1)) := by
  subst h
  have hlen : lengthOf (opcodeAt s) = 1 := by
    rw [← (opcodeForm_length (opcodeAt s) 0 0).1, hf]
    rfl
  rw [busTrace_eq, nextInstr, afterFetch, hlen, hf]
  rfl

/-- The data accesses of PUSH B: B below SP, then C below that (45_stack_push.md R135). -/
theorem dataTransactions_pushB (s : State) :
    dataTransactions .pushB s = [.write (s.sp - 1) s.regs.b, .write (s.sp - 2) s.regs.c] := by
  have hlow : s.sp - 1 - 1 = s.sp - 2 := by bv_omega
  rw [← hlow]
  rfl

theorem regs_of_pushB {s t : State} (h : step s = .next t) (hop : opcodeAt s = 0xC5#8) :
    t.regs = s.regs := by
  cases (step_of_pushB hop).symm.trans h
  rfl

end Sys2Proof.Machine
end

section
/-! Claims of the family 45_stack_push.md, each from the laws above. -/

namespace Sys2Proof

open Machine

/-- Settles O13: the fetch moves PC alone, so the pair goes below the SP of the state before the step, and
its two writes stand in the transactions behind the fetch. -/
theorem stepOfPushB : Obligations.StepOfPushB := by
  intro s hop
  have hstep := step_of_pushB hop
  refine ⟨_, hstep, rfl, rfl, rfl, sp_of_pushB hstep hop, readByte_of_pushB hstep hop, ?_⟩
  rw [busTrace_of_f1 hop rfl, dataTransactions_pushB]
  rfl

/-- Settles O39: the second opcode stands unharmed, so its push starts two below the first, in cells apart
from the first pair. -/
theorem twoPushesStackDownward : Obligations.TwoPushesStackDownward := by
  intro s hop hlo hhigh hlow
  obtain ⟨t, hstep⟩ := exists_step_next s
  obtain ⟨u, hnext⟩ := exists_step_next t
  have hpc : t.pc = s.pc + 1 := pc_of_step hstep hop
  have hsp : t.sp = s.sp - 2 := sp_of_pushB hstep hop
  have hregs : t.regs = s.regs := regs_of_pushB hstep hop
  have hread := readByte_of_pushB hstep hop
  have hopcode : opcodeAt t = 0xC5#8 := by
    rw [opcodeAt, hpc, hread, if_neg hhigh.symm, if_neg hlow.symm, ← operandLo, hlo]
  have hsp3 : s.sp - 2 - 1 = s.sp - 3 := by bv_omega
  have hsp4 : s.sp - 2 - 2 = s.sp - 4 := by bv_omega
  have hreadu : ∀ a, u.readByte a =
      if a = s.sp - 3 then s.regs.b else if a = s.sp - 4 then s.regs.c else t.readByte a := by
    intro a
    rw [readByte_of_pushB hnext hopcode, hsp, hsp3, hsp4, hregs]
  refine ⟨t, u, hstep, hnext, (regs_of_pushB hnext hopcode).trans hregs, ?_, ?_, ?_, ?_, ?_⟩
  · rw [sp_of_pushB hnext hopcode, hsp, hsp4]
  · simp [hreadu, hread]
  · simp [hreadu, hread]
  · simp [hreadu]
  · simp [hreadu]

/-- Settles O6: the meaning is one push of the pair, B first. -/
theorem pushBWritesBThenCBelowSp : Obligations.PushBWritesBThenCBelowSp := fun s =>
  ⟨_, exec_pushB s, rfl, rfl, rfl, pushPair_sp .., pushPair_readByte_pre (s.reg .B) (s.reg .C) s⟩

end Sys2Proof
end

section
/-! SUPPORT. Which opcodes the decoder takes for an undefined one. -/

namespace Sys2Proof

theorem opcodeForm_of_notMem {op : Byte} (h : op ∉ definedOpcodes) : opcodeForm op = .f1 (.undef op) :=
  opcodeForm_undefined (by simpa using h)

/-- What an opcode's form makes is an undefined opcode just when the opcode is none of the twelve, and then
it carries that opcode (30_encoding.md R85). -/
theorem complete_eq_undef_iff {op lo hi o : Byte} :
    (opcodeForm op).complete lo hi = .undef o ↔ o = op ∧ op ∉ definedOpcodes := by
  constructor
  · intro h
    have hwf : o ∉ definedOpcodes := by
      simpa [h, WellFormed, Instr.wellFormed] using wellFormed_complete op lo hi
    have hbytes : [o] = [op, lo, hi].take (opcodeForm op).length := by
      rw [← encode_complete, h]
      rfl
    have hop : o = op := by
      cases hf : opcodeForm op with
      | f1 i => simpa [hf, OpcodeForm.length] using hbytes
      | f2 mk => simp [hf, OpcodeForm.length] at hbytes
      | f3 mk => simp [hf, OpcodeForm.length] at hbytes
    exact ⟨hop, hop ▸ hwf⟩
  · rintro ⟨rfl, hop⟩
    rw [opcodeForm_of_notMem hop]
    rfl

/-- The bytes outside the twelve, counted (30_encoding.md R85). -/
theorem undefined_opcodes_count :
    ((List.range 256).filter fun n => !definedOpcodes.contains (BitVec.ofNat 8 n)).length = 244 := by
  decide +kernel

end Sys2Proof
end

section
/-! Claims of the family 46_undefined_opcodes.md, each from the laws above. -/

namespace Sys2Proof

open Machine

/-- Settles O14: the opcode is the whole instruction, and its meaning leaves the state after the fetch as
it is. -/
theorem stepOfUndefinedOpcode : Obligations.StepOfUndefinedOpcode := by
  intro s hop
  have hform := opcodeForm_of_notMem hop
  exact ⟨(step_of_f1 rfl hform).trans (exec_undef ..), busTrace_of_f1 rfl hform⟩

/-- Settles O20: three bytes are enough for every form, and the form of a defined opcode never makes an
undefined one. -/
theorem everyOpcodeByteDecodes : Obligations.EveryOpcodeByteDecodes := by
  refine ⟨fun op lo hi => ⟨_, _, decode_of_three op lo hi [], fun hop => ?_, fun hop o h => ?_⟩,
    undefined_opcodes_count⟩
  · exact complete_eq_undef_iff.2 ⟨rfl, hop⟩
  · exact (complete_eq_undef_iff.1 h).2 hop

/-- Settles O7, by the meaning of `undef`. -/
theorem undefinedOpcodeChangesNothing : Obligations.UndefinedOpcodeChangesNothing := exec_undef

end Sys2Proof
end

section
/-! SUPPORT. Every meaning answers a next state. -/

namespace Sys2Proof.Machine

/-- No arm of the dispatch faults or refuses (60_exceptions.md R150 to R152): each instruction's answer is
the one its law in `Laws/Step` gives. -/
theorem exists_exec_next (i : Instr) (s : State) : ∃ t, exec i s = .next t := by
  cases i with
  | mviA d8 => exact ⟨_, exec_mviA d8 s⟩
  | mviB d8 => exact ⟨_, exec_mviB d8 s⟩
  | mviC d8 => exact ⟨_, exec_mviC d8 s⟩
  | mviD d8 => exact ⟨_, exec_mviD d8 s⟩
  | mviE d8 => exact ⟨_, exec_mviE d8 s⟩
  | mviH d8 => exact ⟨_, exec_mviH d8 s⟩
  | mviL d8 => exact ⟨_, exec_mviL d8 s⟩
  | mviM d8 => exact ⟨_, exec_mviM d8 s⟩
  | lda addr => exact ⟨_, exec_lda addr s⟩
  | lxiSp imm => exact ⟨_, exec_lxiSp imm s⟩
  | lxiB cVal bVal => exact ⟨_, exec_lxiB cVal bVal s⟩
  | pushB => exact ⟨_, exec_pushB s⟩
  | undef op => exact ⟨_, exec_undef op s⟩

end Sys2Proof.Machine
end

section
/-! Claims of the family 60_exceptions.md, each from the laws above. -/

namespace Sys2Proof

open Machine

/-- Settles O25: a step has the effect its opcode names, and every arm of the dispatch answers `.next`. -/
theorem everyStepAnswersANextState : Obligations.EveryStepAnswersANextState :=
  ⟨exists_step_next, exists_exec_next⟩

end Sys2Proof
end

section
/-! SUPPORT. Runs one step or one move at a time, and how reset meets the other operations. -/

namespace Sys2Proof.Machine

/-- A run goes on from the state its first step answers (40_fetch_execute.md R107). -/
theorem run_succ_of_step {M : Host.Core} {s t : M.State} (h : M.step s = .next t) (n : Nat) :
    M.run (n + 1) s = M.run n t := by
  rw [Host.Core.run, h]

/-- A sequence of moves goes on from the state its first move answers (70_reset_and_hazards.md R191). -/
theorem hostRun_cons_of_move {s t : State} {mv : HostMove} (h : hostMove s mv = .next t)
    (mvs : List HostMove) : hostRun s (mv :: mvs) = hostRun t mvs := by
  rw [hostRun, h]

theorem exists_hostMove_next (s : State) (mv : HostMove) : ∃ t, hostMove s mv = .next t := by
  cases mv with
  | step => exact exists_step_next s
  | reset => exact ⟨hostReset s, rfl⟩

/-- Of the prior state reset keeps the memory and nothing else (70_reset_and_hazards.md R180, log entry 5). -/
theorem hostReset_eq (s : State) : hostReset s = { State.reset with mem := s.mem } := rfl

theorem hostReset_writeByte (s : State) (a : Word) (v : Byte) :
    hostReset (s.writeByte a v) = (hostReset s).writeByte a v := rfl

/-- An opcode 00 is undefined, so its step moves PC alone (46_undefined_opcodes.md R140). -/
theorem step_of_zero {s : State} (h : opcodeAt s = 0x00#8) : step s = .next (s.setPc (s.pc + 1)) :=
  step_of_f1 h rfl

/-- What a cell holds after the post-decrement push of a pair (92_eei_decisions.md, note on D2). -/
theorem pushPair_readByte_post (high low : Byte) (s : State) (a : Word) :
    (pushPair .postDecrement high low s).readByte a =
      if a = s.sp - 1 then low else if a = s.sp then high else s.readByte a := by
  rw [State.readByte, pushPair_mem_post, Memory.read_write, Memory.read_write, State.readByte]

end Sys2Proof.Machine
end

section
/-! Claims of the family 70_reset_and_hazards.md, and of the push discipline, each from the laws above. -/

namespace Sys2Proof

open Machine

/-- Settles O26, by induction on the number of steps and on the list of moves: each completes, from whatever
state the one before it left. -/
theorem runsOfAnyLengthComplete : Obligations.RunsOfAnyLengthComplete := by
  refine ⟨fun n => ?_, fun s mvs => ?_⟩
  · induction n with
    | zero => exact fun s => ⟨s, rfl⟩
    | succ n ih =>
      intro s
      obtain ⟨t, hstep⟩ := exists_step_next s
      obtain ⟨u, hrun⟩ := ih t
      exact ⟨u, (run_succ_of_step (M := core) hstep n).trans hrun⟩
  · induction mvs generalizing s with
    | nil => exact ⟨s, rfl⟩
    | cons mv mvs ih =>
      obtain ⟨t, hmove⟩ := exists_hostMove_next s mv
      rw [hostRun_cons_of_move hmove]
      exact ih t

/-- Settles O47, by induction on the image: reset commutes with each write of the loader. -/
theorem bootOrderDoesNotMatter : Obligations.BootOrderDoesNotMatter := by
  intro s image
  induction image generalizing s with
  | nil => rfl
  | cons c image ih => rw [loadImage, loadImage, ih, hostReset_writeByte]

/-- Settles O49, by induction on the number of steps: each moves PC alone, so memory is zero for the rest of
the run too. -/
theorem zeroMemoryIsWalkedOneByteAStep : Obligations.ZeroMemoryIsWalkedOneByteAStep := by
  intro n
  induction n with
  | zero =>
    intro s _
    rw [BitVec.add_zero]
    rfl
  | succ n ih =>
    intro s hzero
    have hpc : s.pc + 1 + BitVec.ofNat 16 n = s.pc + BitVec.ofNat 16 (n + 1) := by bv_omega
    calc core.run (n + 1) s
      _ = core.run n (s.setPc (s.pc + 1)) :=
        run_succ_of_step (M := core) (step_of_zero (hzero s.pc)) n
      _ = .next (s.setPc (s.pc + 1 + BitVec.ofNat 16 n)) := ih _ hzero
      _ = .next (s.setPc (s.pc + BitVec.ofNat 16 (n + 1))) := by rw [hpc]

/-- Settles O46: a second reset finds the same memory as the first. -/
theorem resetIsIndependentOfThePriorState : Obligations.ResetIsIndependentOfThePriorState := by
  intro s
  refine ⟨hostReset_eq s, ?_, rfl⟩
  rw [hostReset_eq, hostReset_mem, hostReset_eq]

/-- Settles O40: both disciplines take 2 from SP and write two of the three cells, which are distinct even
where SP wraps. -/
theorem pushDisciplinesDifferOnlyAroundTheOldSp :
    Obligations.PushDisciplinesDifferOnlyAroundTheOldSp := by
  intro s
  have hpost := pushPair_readByte_post (s.reg .B) (s.reg .C) s
  have hpre := pushPair_readByte_pre (s.reg .B) (s.reg .C) s
  have hold : s.sp ≠ s.sp - 1 := by bv_omega
  have hlow : s.sp - 2 ≠ s.sp - 1 := by bv_omega
  have hlow' : s.sp - 2 ≠ s.sp := by bv_omega
  refine ⟨?_, rfl, rfl, rfl, ?_, ?_, ?_, fun a ha ha1 ha2 => ?_⟩
  · exact (pushPair_sp ..).trans (pushPair_sp ..).symm
  · exact (hpost s.sp).trans ((if_neg hold).trans (if_pos rfl))
  · exact (hpost (s.sp - 1)).trans (if_pos rfl)
  · exact (hpost (s.sp - 2)).trans ((if_neg hlow).trans (if_neg hlow'))
  · rw [pushPairBC, pushPairBC, hpost, hpre, if_neg ha1, if_neg ha, if_neg ha1, if_neg ha2]

end Sys2Proof
end
